-- ==== Sys2Proof/Word.lean ====
section
/-! DEFINITION. The value types of PPMCORE: the event word, the integer widths the rules name, and the
EncodedWidth triple (10_state.md R11). Functions over them stand in Machine/. -/

namespace Sys2Proof

/-- One event, 32 bits, bit 0 the least significant (30_encoding.md R60, 00_scope.md R7). -/
abbrev EventWord := BitVec 32

/-- A 16-bit number of microseconds: a width, a period, a timestamp or an interval; arithmetic on
timestamps is modulo 65536 (40_tickclock_arith.md R90). -/
abbrev Micros := BitVec 16

/-- The 8-bit timer counter and compare register; arithmetic modulo 256 (40_tickclock_arith.md R90). -/
abbrev Count8 := BitVec 8

/-- A set of eight one-shot client flags, and a client mask; bit i is client i (10_state.md R16). -/
abbrev FlagSet := BitVec 8

/-- A duration in ticks, split for the handler: `ovf` full 256-tick blocks, the half-block borrow
`half`, and the remainder `rem` (10_state.md R11). -/
structure EncodedWidth where
  ovf : BitVec 7
  half : Bool
  rem : BitVec 8
  deriving DecidableEq, Repr

/-- Modulation polarity: Positive is 0, Negative is 1 (10_state.md R13). -/
inductive Polarity where
  | positive
  | negative
  deriving DecidableEq, Repr

end Sys2Proof
end

