-- ==== Sys2Proof/Config.lean ====
section
/-! DEFINITION. The constants of 00_scope.md R3, the parameters of R4, the configuration constraints of
R5, the reference configuration of R6, and the free value any(16) of R8. -/

namespace Sys2Proof

/-- Largest channel count of the generator (00_scope.md R3). -/
abbrev maxCh : Nat := 8
/-- Slots of the channel table: eight channels and slot 0 (00_scope.md R3). -/
abbrev tableSlots : Nat := 9
/-- Entries of a decoder buffer (00_scope.md R3). -/
abbrev decCapacity : Nat := 9
/-- Bits of a synchro flag set (00_scope.md R3). -/
abbrev syncClients : Nat := 8
/-- Guard band in ticks (00_scope.md R3). -/
abbrev guardTicks : Nat := 16
/-- Half of a full timer cycle, in ticks (00_scope.md R3). -/
abbrev halfOvf : Nat := 128
/-- A full free timer cycle, in ticks (00_scope.md R3). -/
abbrev fullOvf : Nat := 256
/-- Smallest interval the decoder takes for the synchro gap, in µs (00_scope.md R3). -/
abbrev syncThresholdUs : Nat := 3000
/-- Neutral channel width, in µs (00_scope.md R3). -/
abbrev neutralUs : Nat := 1500
/-- Smallest frame period, in µs (00_scope.md R3). -/
abbrev periodMinUs : Nat := 10000
/-- Largest frame period, in µs (00_scope.md R3). -/
abbrev periodMaxUs : Nat := 40000
/-- Default frame period, in µs (00_scope.md R3). -/
abbrev periodDefaultUs : Nat := 20000
/-- Modulus of timestamps and intervals, in µs (00_scope.md R3). -/
abbrev tsMod : Nat := 65536
/-- Divisor of the calibration correction (00_scope.md R3). -/
abbrev calShift : Nat := 32
/-- Lower end of the supported envelope of channel widths; enforced by no rule (00_scope.md R3). -/
abbrev envelopeMinUs : Nat := 600
/-- Upper end of the supported envelope of channel widths; enforced by no rule (00_scope.md R3). -/
abbrev envelopeMaxUs : Nat := 2400
/-- The upper guard of the encoding rule is applied (00_scope.md R4, 90_conflicts.md C5). -/
abbrev upperGuard : Bool := true
/-- The "invalid sentinel" of the decoder's cursors (00_scope.md R4). -/
abbrev widxInvalid : BitVec 8 := 255
/-- Largest tick count `encode` is defined for (40_tickclock_arith.md R89). -/
abbrev encodeMax : Nat := 32752
/-- The frame-period estimate exists (00_scope.md R4). -/
abbrev hasPeriod : Bool := true
/-- Width of an input-line identity (00_scope.md R4). -/
abbrev lineBits : Nat := 8
/-- Number of generator instances (00_scope.md R4); the state holds this one generator. -/
abbrev nGen : Nat := 1

/-- The OPEN parameters of 00_scope.md R4: the tick is `tickNum/tickDen` µs, `cal` selects the
calibration variant, `headerUs` is the header pulse in µs, `ndec` the number of decoder instances. -/
structure Config where
  tickNum : Nat
  tickDen : Nat
  cal : Bool
  headerUs : Nat
  ndec : Nat
  deriving DecidableEq, Repr

/-- The ranges 00_scope.md R4 gives the OPEN parameters. -/
def Config.wf (c : Config) : Bool :=
  decide (0 < c.tickNum ∧ 0 < c.tickDen ∧ c.headerUs ≤ 65535 ∧ 1 ≤ c.ndec ∧ c.ndec ≤ 8)

/-- The reference configuration REF (00_scope.md R6): a 4 µs tick, no calibration, a 300 µs header,
two decoder instances. -/
def Config.ref : Config :=
  { tickNum := 4, tickDen := 1, cal := false, headerUs := 300, ndec := 2 }

/-- `any(16)` (00_scope.md R8): the n-th 16-bit value drawn under no law. It has no body, so nothing
can be proved of a value of it (93_implementation_defined.md U1, U2; log 5). -/
opaque Config.any16 : Nat → BitVec 16

end Sys2Proof
end

