-- ==== Sys2Proof/Syntax.lean ====
section
/-! DEFINITION. The sixteen events of PPMCORE (30_encoding.md R63), one constructor per row of
spec/opcode_table.json, each with the fields of its format (30_encoding.md R61, R62). -/

namespace Sys2Proof

/-- One event with its operands (30_encoding.md R61 to R63). -/
inductive Instr where
  /-- T.US2T us: microseconds to ticks (40_tickclock_arith.md R80). -/
  | tUs2t (us : Micros)
  /-- G.INIT alloc_ok, pol, nch, period_us (41_generator.md R100). -/
  | gInit (allocOk : Bool) (pol : Polarity) (nch : BitVec 4) (periodUs : Micros)
  /-- G.SETW ch, width_us (41_generator.md R101). -/
  | gSetw (ch : BitVec 4) (widthUs : Micros)
  /-- G.POLL mask (41_generator.md R102). -/
  | gPoll (mask : FlagSet)
  /-- G.CMATCH: the compare-match event (41_generator.md R103). -/
  | gCmatch
  /-- G.TICK: one timer count (41_generator.md R106). -/
  | gTick
  /-- D.ATTACH inst, slot_ok, line (42_decoder.md R130). -/
  | dAttach (inst : BitVec 3) (slotOk : Bool) (line : BitVec 8)
  /-- D.EDGE line, ts (42_decoder.md R131). -/
  | dEdge (line : BitVec 8) (ts : Micros)
  /-- D.NB inst (42_decoder.md R132). -/
  | dNb (inst : BitVec 3)
  /-- D.WIDTH inst, ch (42_decoder.md R133). -/
  | dWidth (inst : BitVec 3) (ch : BitVec 4)
  /-- D.PERIOD inst (42_decoder.md R134). -/
  | dPeriod (inst : BitVec 3)
  /-- D.ISSYNC inst, mask (42_decoder.md R135). -/
  | dIssync (inst : BitVec 3) (mask : FlagSet)
  /-- D.SUSPEND inst (42_decoder.md R136). -/
  | dSuspend (inst : BitVec 3)
  /-- D.RESUME inst, now (42_decoder.md R137). -/
  | dResume (inst : BitVec 3) (now : Micros)
  /-- T.ENC ticks (40_tickclock_arith.md R84). -/
  | tEnc (ticks : BitVec 15)
  /-- T.DEC ew: a packed EncodedWidth (40_tickclock_arith.md R85). -/
  | tDec (ew : BitVec 16)
  deriving DecidableEq, Repr

/-- The sixteen opcodes (30_encoding.md R63), in the table's order. -/
inductive Op where
  | tUs2t | gInit | gSetw | gPoll | gCmatch | gTick | dAttach | dEdge
  | dNb | dWidth | dPeriod | dIssync | dSuspend | dResume | tEnc | tDec
  deriving DecidableEq, Repr

/-- Who issues an event (00_scope.md R2). -/
inductive Agent where
  | host
  | timer
  | capture
  deriving DecidableEq, Repr

/-- The part of the block an event works on (00_scope.md R1, 10_state.md R10). -/
inductive Part where
  | tickClock
  | generator
  | decoder
  deriving DecidableEq, Repr

/-- The two contexts (10_state.md R20, 60_exceptions.md R180). -/
inductive Context where
  | host
  | interrupt
  deriving DecidableEq, Repr

end Sys2Proof
end

