-- ==== Sys2Proof/WellFormed.lean ====
section
/-! DEFINITION. Well-formed events. Every field has exactly its format's width by its type
(30_encoding.md R61), so the one check left is that a decoder event names an instance that exists
(30_encoding.md R64, R67). -/

namespace Sys2Proof

/-- The decoder instance an event names, for the events that address one (30_encoding.md R60). -/
def Instr.inst? : Instr → Option (BitVec 3)
  | .tUs2t _ => none
  | .gInit _ _ _ _ => none
  | .gSetw _ _ => none
  | .gPoll _ => none
  | .gCmatch => none
  | .gTick => none
  | .dAttach d _ _ => some d
  | .dEdge _ _ => none
  | .dNb d => some d
  | .dWidth d _ => some d
  | .dPeriod d => some d
  | .dIssync d _ => some d
  | .dSuspend d => some d
  | .dResume d _ => some d
  | .tEnc _ => none
  | .tDec _ => none

/-- An event is well formed when the instance it names, if any, is below NDEC (30_encoding.md R64). -/
def Instr.wf (ndec : Nat) (i : Instr) : Bool :=
  match i.inst? with
  | none => true
  | some d => decide (d.toNat < ndec)

end Sys2Proof
end

