-- ==== Sys2Proof/Decode.lean ====
section
/-! DEFINITION. The event word's decoder (30_encoding.md R60 to R67) and its encoder. -/

namespace Sys2Proof

/-- Why a word is reserved (30_encoding.md R64). -/
inductive DecodeError where
  /-- The opcode field is none of the sixteen of 30_encoding.md R63. -/
  | unknownOpcode
  /-- A must-be-zero bit of the word is set. -/
  | mustBeZero
  /-- A decoder event names an instance at or above NDEC. -/
  | absentInstance
  deriving DecidableEq, Repr

/-- The opcode of an event. -/
def Instr.op : Instr → Op
  | .tUs2t _ => .tUs2t
  | .gInit _ _ _ _ => .gInit
  | .gSetw _ _ => .gSetw
  | .gPoll _ => .gPoll
  | .gCmatch => .gCmatch
  | .gTick => .gTick
  | .dAttach _ _ _ => .dAttach
  | .dEdge _ _ => .dEdge
  | .dNb _ => .dNb
  | .dWidth _ _ => .dWidth
  | .dPeriod _ => .dPeriod
  | .dIssync _ _ => .dIssync
  | .dSuspend _ => .dSuspend
  | .dResume _ _ => .dResume
  | .tEnc _ => .tEnc
  | .tDec _ => .tDec

/-- The 5-bit opcode of a row of 30_encoding.md R63. -/
def Op.code : Op → BitVec 5
  | .tUs2t => 0x01
  | .gInit => 0x02
  | .gSetw => 0x03
  | .gPoll => 0x04
  | .gCmatch => 0x05
  | .gTick => 0x06
  | .dAttach => 0x08
  | .dEdge => 0x09
  | .dNb => 0x0A
  | .dWidth => 0x0B
  | .dPeriod => 0x0C
  | .dIssync => 0x0D
  | .dSuspend => 0x0E
  | .dResume => 0x0F
  | .tEnc => 0x10
  | .tDec => 0x11

/-- The `match` column of 30_encoding.md R63. -/
def Op.matchWord : Op → EventWord
  | .tUs2t => 0x08000000
  | .gInit => 0x10000000
  | .gSetw => 0x18000000
  | .gPoll => 0x20000000
  | .gCmatch => 0x28000000
  | .gTick => 0x30000000
  | .dAttach => 0x40000000
  | .dEdge => 0x48000000
  | .dNb => 0x50000000
  | .dWidth => 0x58000000
  | .dPeriod => 0x60000000
  | .dIssync => 0x68000000
  | .dSuspend => 0x70000000
  | .dResume => 0x78000000
  | .tEnc => 0x80000000
  | .tDec => 0x88000000

/-- The `mask` column of 30_encoding.md R63: the opcode and every must-be-zero bit. -/
def Op.maskWord : Op → EventWord
  | .tUs2t => 0xFFFF0000
  | .gInit => 0xFFC00000
  | .gSetw => 0xFFF00000
  | .gPoll => 0xFFFFFF00
  | .gCmatch => 0xFFFFFFFF
  | .gTick => 0xFFFFFFFF
  | .dAttach => 0xF8FFFE00
  | .dEdge => 0xFF000000
  | .dNb => 0xF8FFFFFF
  | .dWidth => 0xF8FFFFF0
  | .dPeriod => 0xF8FFFFFF
  | .dIssync => 0xF8FFFF00
  | .dSuspend => 0xF8FFFFFF
  | .dResume => 0xF8FF0000
  | .tEnc => 0xFFFF8000
  | .tDec => 0xFFFF0000

/-- The row whose opcode is `c`; none for the reserved opcodes 0x00, 0x07 and 0x12 to 0x1F
(30_encoding.md R63, R64). -/
def opOfCode (c : BitVec 5) : Option Op :=
  match c.toNat with
  | 0x01 => some .tUs2t
  | 0x02 => some .gInit
  | 0x03 => some .gSetw
  | 0x04 => some .gPoll
  | 0x05 => some .gCmatch
  | 0x06 => some .gTick
  | 0x08 => some .dAttach
  | 0x09 => some .dEdge
  | 0x0A => some .dNb
  | 0x0B => some .dWidth
  | 0x0C => some .dPeriod
  | 0x0D => some .dIssync
  | 0x0E => some .dSuspend
  | 0x0F => some .dResume
  | 0x10 => some .tEnc
  | 0x11 => some .tDec
  | _ => none

/-- Polarity from the `pol` bit, and back (30_encoding.md R62). -/
def polOfBit (b : Bool) : Polarity := if b then .negative else .positive
/-- The `pol` bit of a polarity (30_encoding.md R62). -/
def bitOfPol : Polarity → Bool
  | .positive => false
  | .negative => true

/-- The fields of a word whose row is `op`, at the positions of 30_encoding.md R61. -/
def extract (op : Op) (w : EventWord) : Instr :=
  match op with
  | .tUs2t => .tUs2t (w.extractLsb' 0 16)
  | .gInit => .gInit (w.getLsbD 21) (polOfBit (w.getLsbD 20)) (w.extractLsb' 16 4) (w.extractLsb' 0 16)
  | .gSetw => .gSetw (w.extractLsb' 16 4) (w.extractLsb' 0 16)
  | .gPoll => .gPoll (w.extractLsb' 0 8)
  | .gCmatch => .gCmatch
  | .gTick => .gTick
  | .dAttach => .dAttach (w.extractLsb' 24 3) (w.getLsbD 8) (w.extractLsb' 0 8)
  | .dEdge => .dEdge (w.extractLsb' 16 8) (w.extractLsb' 0 16)
  | .dNb => .dNb (w.extractLsb' 24 3)
  | .dWidth => .dWidth (w.extractLsb' 24 3) (w.extractLsb' 0 4)
  | .dPeriod => .dPeriod (w.extractLsb' 24 3)
  | .dIssync => .dIssync (w.extractLsb' 24 3) (w.extractLsb' 0 8)
  | .dSuspend => .dSuspend (w.extractLsb' 24 3)
  | .dResume => .dResume (w.extractLsb' 24 3) (w.extractLsb' 0 16)
  | .tEnc => .tEnc (w.extractLsb' 0 15)
  | .tDec => .tDec (w.extractLsb' 0 16)

/-- The decoding procedure of 30_encoding.md R67: find the row by opcode, check `(w & mask) == match`,
check the instance number against NDEC, extract the fields. -/
def decodeWord (ndec : Nat) (w : EventWord) : Except DecodeError Instr :=
  match opOfCode (w.extractLsb' 27 5) with
  | none => .error .unknownOpcode
  | some op =>
    if w &&& op.maskWord = op.matchWord then
      if (extract op w).wf ndec then .ok (extract op w) else .error .absentInstance
    else .error .mustBeZero

/-- A field placed with its lowest bit at position `lo`, every other bit zero (30_encoding.md R61). -/
def place {n : Nat} (v : BitVec n) (lo : Nat) : EventWord := v.setWidth 32 <<< lo

/-- One bit as a field. -/
def bit1 (b : Bool) : BitVec 1 := BitVec.ofBool b

/-- The event word of an event: its opcode, its instance number where it has one, and its fields at
the positions of 30_encoding.md R61, every other bit zero (R60). -/
def encode (i : Instr) : EventWord :=
  match i with
  | .tUs2t us => place 0x01#5 27 ||| place us 0
  | .gInit a p n per =>
    place 0x02#5 27 ||| place (bit1 a) 21 ||| place (bit1 (bitOfPol p)) 20 ||| place n 16 ||| place per 0
  | .gSetw ch wd => place 0x03#5 27 ||| place ch 16 ||| place wd 0
  | .gPoll m => place 0x04#5 27 ||| place m 0
  | .gCmatch => place 0x05#5 27
  | .gTick => place 0x06#5 27
  | .dAttach d sl ln => place 0x08#5 27 ||| place d 24 ||| place (bit1 sl) 8 ||| place ln 0
  | .dEdge ln ts => place 0x09#5 27 ||| place ln 16 ||| place ts 0
  | .dNb d => place 0x0A#5 27 ||| place d 24
  | .dWidth d ch => place 0x0B#5 27 ||| place d 24 ||| place ch 0
  | .dPeriod d => place 0x0C#5 27 ||| place d 24
  | .dIssync d m => place 0x0D#5 27 ||| place d 24 ||| place m 0
  | .dSuspend d => place 0x0E#5 27 ||| place d 24
  | .dResume d now => place 0x0F#5 27 ||| place d 24 ||| place now 0
  | .tEnc t => place 0x10#5 27 ||| place t 0
  | .tDec e => place 0x11#5 27 ||| place e 0

/-- The word `w` of `nbits` bits as an event word; none where it is no 32-bit word. The bits above
`nbits` are zero, and an event has no second word and no byte order (30_encoding.md R60, 20_memory.md
R43). -/
def wordOfTable (nbits w : Nat) : Option EventWord :=
  if nbits ≤ 32 ∧ w < 2 ^ nbits then some (BitVec.ofNat 32 w) else none

/-- The host's reading of an opcode table word. It is decoded with NDEC = 8, the largest value
00_scope.md R4 allows, so that no word is refused here for its instance number (log 3). -/
def decodeTableWord (nbits w : Nat) : Option Instr :=
  match wordOfTable nbits w with
  | none => none
  | some ew =>
    match decodeWord 8 ew with
    | .ok i => some i
    | .error _ => none

end Sys2Proof
end

