-- ==== Sys2Proof/Machine/State.lean ====
section
/-! DEFINITION. The state of PPMCORE as plain data (10_state.md R10 to R18), the reasons a step can
stop, and the power-on reset state (10_state.md R23, 70_reset_and_hazards.md R200). -/

namespace Sys2Proof.Machine

/-- The two sides of the channel table as storage spaces (20_memory.md R40). -/
inductive Space where
  | cur
  | next
  deriving DecidableEq, Repr

/-- The step the handler runs at the next compare-match event; Header is 0, Tail is 1
(10_state.md R14). -/
inductive Phase where
  | header
  | tail
  deriving DecidableEq, Repr

/-- The five silent conditions E1 to E5 (60_exceptions.md R170). No state element records one. -/
inductive Condition where
  /-- E1: G.INIT with `alloc_ok` = 0. -/
  | resourceExhaustion
  /-- E2: G.SETW or D.WIDTH with a channel outside its range. -/
  | invalidChannel
  /-- E3: D.EDGE with a short interval and no room in the buffer. -/
  | capacityOverflow
  /-- E4: G.SETW or G.INIT with a filler outside the encoder's domain. -/
  | timingViolation
  /-- E5: D.ATTACH with `slot_ok` = 0. -/
  | captureUnavailable
  deriving DecidableEq, Repr

/-- Why the machine stops with a fault. -/
inductive Fault where
  /-- Raised by a read of a channel-table entry that has no value: 10_state.md R23 says such a read is
  a fault of the model. Safe: 10_state.md R24 says no rule reads one. -/
  | unspecifiedEntry (space : Space) (slot : Nat)
  /-- Raised by a read of a slot above 8, which the table does not have (20_memory.md R40). Safe: NCH is
  at most 8 in every state a run reaches. -/
  | noSuchSlot (space : Space) (slot : Nat)
  deriving DecidableEq, Repr

/-- Why the machine gives an event no meaning. -/
inductive Refusal where
  /-- The event has no meaning in this model yet; raised by no arm of this model. Safe. -/
  | notModelled (mnemonic : String)
  /-- Raised by `step` when the agents have issued no further event: the run ends there
  (60_exceptions.md R186). Safe. -/
  | noEvent
  /-- Raised by `step` on a reserved event word (30_encoding.md R64). Safe. -/
  | reservedWord (why : DecodeError)
  /-- Raised by an event naming a decoder instance that does not exist (30_encoding.md R64). Safe. -/
  | absentInstance (inst : BitVec 3)
  /-- Raised by G.INIT with a channel count of 0 (41_generator.md R100, 93 U3). Safe. -/
  | channelCountZero
  deriving DecidableEq, Repr

/-- One side of the channel table: nine slots, each an EncodedWidth or, before anything wrote it, no
value at all (10_state.md R12, R23). -/
abbrev Table := Vector (Option EncodedWidth) tableSlots

/-- The generator (10_state.md R12 to R17). -/
structure Gen where
  /-- POL (R13). -/
  pol : Polarity
  /-- NCH, the channel count (R13). -/
  nch : BitVec 4
  /-- PERIOD_US (R13). -/
  periodUs : Micros
  /-- EN (R13). -/
  en : Bool
  /-- The pending side `TAB[i].next` (R12). -/
  next : Table
  /-- The current side `TAB[i].cur` (R12). -/
  cur : Table
  /-- AIDX, the active slot (R14). -/
  aidx : BitVec 4
  /-- PHASE (R14). -/
  phase : Phase
  /-- WORK, the working encoding (R15). -/
  work : EncodedWidth
  /-- G_SYNC, the generator's synchro flags (R16). -/
  sync : FlagSet
  /-- CNT, the free-running counter (R17). -/
  cnt : Count8
  /-- OCR, the compare register (R17). -/
  ocr : Count8
  /-- TOG: the pin toggles at a compare match (R17). -/
  tog : Bool
  /-- CIE: a compare match runs the handler (R17). -/
  cie : Bool
  /-- PIN, true = high (R17). -/
  pin : Bool
  deriving DecidableEq, Repr

/-- One decoder instance (10_state.md R18). -/
structure Dec where
  /-- ATT: the instance receives edges. -/
  att : Bool
  /-- BOUND: an attach has succeeded since reset. -/
  bound : Bool
  /-- LINE: the input line listened to. -/
  line : BitVec 8
  /-- BUF: the measured widths in µs. -/
  buf : Vector Micros decCapacity
  /-- WIDX: the write cursor, 0 to 9 or the sentinel. -/
  widx : BitVec 8
  /-- CCNT: the committed count, 0 to 9 or the sentinel. -/
  ccnt : BitVec 8
  /-- PREV_TS: timestamp of the last delivered edge. -/
  prevTs : Micros
  /-- PSYNC_TS: timestamp of the last synchro edge. -/
  psyncTs : Micros
  /-- PERIOD_EST: the frame-period estimate. -/
  periodEst : Micros
  /-- D_SYNC: the instance's synchro flags. -/
  sync : FlagSet
  deriving DecidableEq, Repr

/-- The whole machine: the generator and the decoder instances (10_state.md R10), with four fields of
the model's own: the configuration (log 1), the events still to come (log 2), the last response (log 4)
and the count of free values drawn (log 5). -/
structure State where
  /-- The OPEN parameters, written by nothing (00_scope.md R4; log 1). -/
  cfg : Config
  /-- The generator. -/
  gen : Gen
  /-- The decoder instances 0 to NDEC-1, in order. -/
  dec : List Dec
  /-- The events issued and not yet taken, oldest first (20_memory.md R48; log 2). -/
  events : List EventWord
  /-- The response of the last completed operation (30_encoding.md R65; log 4). -/
  resp : Option Int
  /-- How many values `any(16)` has given (00_scope.md R8; log 5). -/
  draws : Nat
  deriving DecidableEq, Repr

/-- The generator after power-on reset (10_state.md R23, first column). -/
def Gen.reset : Gen :=
  { pol := .positive, nch := 1, periodUs := BitVec.ofNat 16 periodDefaultUs, en := false,
    next := Vector.replicate tableSlots none, cur := Vector.replicate tableSlots none,
    aidx := 0, phase := .header, work := ⟨0, false, 0⟩, sync := 0,
    cnt := 0, ocr := 0, tog := false, cie := false, pin := false }

/-- A decoder instance after power-on reset (10_state.md R23, first column). -/
def Dec.reset : Dec :=
  { att := false, bound := false, line := 0, buf := Vector.replicate decCapacity 0,
    widx := widxInvalid, ccnt := widxInvalid, prevTs := 0, psyncTs := 0, periodEst := 0, sync := 0 }

/-- The power-on reset state of the block built with configuration `c` (70_reset_and_hazards.md R200). -/
def State.resetOf (c : Config) : State :=
  { cfg := c, gen := Gen.reset, dec := List.replicate c.ndec Dec.reset,
    events := [], resp := none, draws := 0 }

/-- The power-on reset state of the block built with the reference configuration (log 1). -/
def State.reset : State := State.resetOf Config.ref

end Sys2Proof.Machine
end

