-- ==== Sys2Proof/Machine/Deliver.lean ====
section
/-! DEFINITION. How the block takes the next event from those the agents have issued (20_memory.md R48;
log 2), which is this hardware's stand-in for an instruction fetch. -/

namespace Sys2Proof.Machine

/-- The next event taken: its decoding and the state without it; none where no event is left. A
reserved word decodes to an error (30_encoding.md R64, R67). -/
def takeEvent (s : State) : Option (Except DecodeError Instr × State) :=
  match s.events with
  | [] => none
  | w :: rest => some (decodeWord s.cfg.ndec w, { s with events := rest })

/-- An event word put in front of those still to come. -/
def issueFirst (s : State) (w : EventWord) : State := { s with events := w :: s.events }

end Sys2Proof.Machine
end

