-- ==== Sys2Proof/Machine/Flags.lean ====
section
/-! DEFINITION. The synchro client registry: the two primitives over an 8-bit one-shot flag set
(43_registry.md). -/

namespace Sys2Proof.Machine

/-- `signal`: every bit of the set is raised (43_registry.md R160). -/
def signal (_s : FlagSet) : FlagSet := 0xFF

/-- What `pollAndClear` returns: the masked bits (43_registry.md R161). -/
def pollValue (s m : FlagSet) : FlagSet := s &&& m

/-- What `pollAndClear` leaves: only the masked bits are cleared (43_registry.md R161). -/
def pollRest (s m : FlagSet) : FlagSet := s &&& ~~~m

end Sys2Proof.Machine
end

