-- ==== Sys2Proof/Machine/Operands.lean ====
section
/-! DEFINITION. The pure functions over operands: the packing of an EncodedWidth (10_state.md R11), the
tick conversion, the encoder and its inverses (40_tickclock_arith.md R80 to R89). -/

namespace Sys2Proof.Machine

/-- The 16-bit packing `{half, ovf, rem}` of an EncodedWidth (10_state.md R11). -/
def pack (e : EncodedWidth) : BitVec 16 := BitVec.ofBool e.half ++ e.ovf ++ e.rem

/-- The EncodedWidth a packed 16-bit value stands for (10_state.md R11). -/
def unpack (v : BitVec 16) : EncodedWidth :=
  { ovf := v.extractLsb' 8 7, half := v.getLsbD 15, rem := v.extractLsb' 0 8 }

/-- The numeric value of POL (10_state.md R13). -/
def polCode (p : Polarity) : Nat :=
  match p with
  | .positive => 0
  | .negative => 1

/-- The numeric value of PHASE (10_state.md R14). -/
def phaseCode (p : Phase) : Nat :=
  match p with
  | .header => 0
  | .tail => 1

/-- The idle level of the pin: low for Positive, high for Negative (41_generator.md R110). -/
def idleLevel (p : Polarity) : Bool :=
  match p with
  | .positive => false
  | .negative => true

/-- The calibration correction, applied to every conversion when CAL = 1 (40_tickclock_arith.md R81). -/
def calibrate (c : Config) (us : Nat) : Nat := if c.cal then us + us / calShift else us

/-- `us2ticks`: microseconds to ticks, an exact half rounded up (40_tickclock_arith.md R80, R82). -/
def us2ticks (c : Config) (us : Nat) : Nat :=
  (2 * calibrate c us * c.tickDen + c.tickNum) / (2 * c.tickNum)

/-- HDR_TICKS (40_tickclock_arith.md R83). -/
def hdrTicks (c : Config) : Nat := us2ticks c c.headerUs

/-- HDR_ADD: whether the Header phase adds HDR_TICKS to the compare register
(40_tickclock_arith.md R83). -/
def hdrAdd (c : Config) : Bool := decide (c.tickDen < c.tickNum)

/-- PERIOD_TICKS for a frame period (40_tickclock_arith.md R83). -/
def periodTicks (c : Config) (periodUs : Micros) : Nat := us2ticks c periodUs.toNat

/-- `encode`: the overflow decomposition with both guards, for tick counts up to 32752
(40_tickclock_arith.md R84, R89). -/
def encodeTicks (t : Nat) : EncodedWidth :=
  let ovf := t / 256
  let rem := t % 256
  if rem < guardTicks then
    ⟨BitVec.ofNat 7 ovf, true, BitVec.ofNat 8 (rem + halfOvf)⟩
  else if upperGuard ∧ fullOvf - guardTicks < rem then
    ⟨BitVec.ofNat 7 (ovf + 1), true, BitVec.ofNat 8 (rem - halfOvf)⟩
  else
    ⟨BitVec.ofNat 7 ovf, false, BitVec.ofNat 8 rem⟩

/-- `decodedTicks`: undoes the borrow; an integer, negative only for encodings the encoder cannot
produce (40_tickclock_arith.md R85). -/
def decodedTicks (e : EncodedWidth) : Int :=
  256 * (e.ovf.toNat : Int) + e.rem.toNat - (if e.half then 128 else 0)

/-- `segTicks`: the ticks the handler lets pass for a tail (40_tickclock_arith.md R86). -/
def segTicks (e : EncodedWidth) : Nat :=
  if e.ovf = 0 then
    if e.rem = 0 then 256 else e.rem.toNat
  else
    e.rem.toNat + 256 * e.ovf.toNat - (if e.half then 128 else 0)

/-- `widthTicks`: the tail length of a requested width, clamped to 0 below the header
(40_tickclock_arith.md R87). -/
def widthTicks (c : Config) (widthUs : Nat) : Nat :=
  if widthUs < c.headerUs then 0 else us2ticks c (widthUs - c.headerUs)

/-- The time from a match that adds `d` to OCR to the next match (41_generator.md R108). -/
def matchDelay (d : Count8) : Nat := if d = 0 then 256 else d.toNat

/-- What the Header phase adds to OCR: HDR_TICKS, or nothing when HDR_ADD = 0 (41_generator.md R104). -/
def hdrStep (c : Config) : Count8 := if hdrAdd c then BitVec.ofNat 8 (hdrTicks c) else 0

/-- The header's length in ticks (41_generator.md R109, 70_reset_and_hazards.md R206). -/
def headerLen (c : Config) : Nat := matchDelay (hdrStep c)

/-- The channel count G.INIT stores: clamped to 8 (41_generator.md R100). -/
def clampChannels (n : BitVec 4) : BitVec 4 := BitVec.ofNat 4 (min n.toNat maxCh)

/-- The frame period G.INIT stores: clamped to 10000..40000 (41_generator.md R100). -/
def clampPeriod (p : Micros) : Micros := BitVec.ofNat 16 (min (max p.toNat periodMinUs) periodMaxUs)

/-- The interval between two timestamps, modulo 65536 (40_tickclock_arith.md R90). -/
def interval (ts prev : Micros) : Micros := ts - prev

end Sys2Proof.Machine
end

