-- ==== Sys2Proof/Machine/Ops.lean ====
section
/-! DEFINITION. The shared operations: responding, raising a condition, the channel table's reads and
writes, drawing a free value, the filler, the compare match with its two handler steps, and the edge
routine of a decoder. -/

namespace Sys2Proof.Machine

/-! ### Responding, raising, instances -/

/-- `resp <- r`: the operation completes with response `r` (00_scope.md R8). -/
def State.respond (s : State) (r : Int) : State := { s with resp := some r }

/-- The generator replaced. -/
def State.setGen (s : State) (g : Gen) : State := { s with gen := g }

/-- The count of drawn free values replaced. -/
def State.setDraws (s : State) (n : Nat) : State := { s with draws := n }

/-- Decoder instance `d` replaced. -/
def State.setDec (s : State) (d : Nat) (x : Dec) : State := { s with dec := s.dec.set d x }

/-- Every decoder instance updated by one function. -/
def State.mapDec (s : State) (f : Dec → Dec) : State := { s with dec := s.dec.map f }

/-- Raising a condition: the one shared operation for all five. It saves nothing, records nothing,
changes no mode and transfers no control; what the operation leaves is `x` (60_exceptions.md R170,
R171; 00_scope.md R8; log 7). -/
def raise {α : Type} (_c : Condition) (x : α) : α := x

/-- An operation on decoder instance `d`, giving the instance's new state and the response; an instance
that does not exist is refused (30_encoding.md R64). -/
def onDec (s : State) (d : BitVec 3) (f : Dec → Dec × Int) : Host.Outcome State Fault Refusal :=
  match s.dec[d.toNat]? with
  | none => .refused (.absentInstance d)
  | some x => .next ((s.setDec d.toNat (f x).1).respond (f x).2)

/-- An operation on the generator that may fault; its response is `r`. -/
def onGen (s : State) (g : Except Fault Gen) (r : Int) : Host.Outcome State Fault Refusal :=
  match g with
  | .error f => .fault f
  | .ok g' => .next ((s.setGen g').respond r)

/-! ### The channel table -/

/-- Read of slot `i` of one side of the table. A slot that has no value is a fault (10_state.md R23). -/
def readSlot (sp : Space) (t : Table) (i : Nat) : Except Fault EncodedWidth :=
  match t[i]? with
  | none => .error (.noSuchSlot sp i)
  | some none => .error (.unspecifiedEntry sp i)
  | some (some e) => .ok e

/-- Write of slot `i` of one side of the table. -/
def writeSlot (t : Table) (i : Nat) (e : EncodedWidth) : Table := t.setIfInBounds i (some e)

/-- The commit's copy of slots 0 to k-1 from the pending side `nxt` to the current side `cur`
(41_generator.md R104); copying a slot reads it. -/
def copySlots (nxt cur : Table) : Nat → Except Fault Table
  | 0 => .ok cur
  | k + 1 =>
    match copySlots nxt cur k with
    | .error f => .error f
    | .ok c =>
      match readSlot .next nxt k with
      | .error f => .error f
      | .ok e => .ok (writeSlot c k e)

/-- The sum of `decodedTicks(TAB[k].next)` for k in 1..n (40_tickclock_arith.md R88). -/
def sumDecoded (nxt : Table) : Nat → Except Fault Int
  | 0 => .ok 0
  | k + 1 =>
    match sumDecoded nxt k with
    | .error f => .error f
    | .ok a =>
      match readSlot .next nxt (k + 1) with
      | .error f => .error f
      | .ok e => .ok (a + decodedTicks e)

/-- `fillerTicks`, an integer that may be negative (40_tickclock_arith.md R88). -/
def fillerTicks (c : Config) (g : Gen) : Except Fault Int :=
  match sumDecoded g.next g.nch.toNat with
  | .error f => .error f
  | .ok a => .ok ((periodTicks c g.periodUs : Int) - (hdrTicks c : Int) * (g.nch.toNat + 1) - a)

/-! ### Free values -/

/-- The n-th draw of `any(16)`, unpacked (00_scope.md R8; log 5). -/
def drawn (n : Nat) : EncodedWidth := unpack (Config.any16 n)

/-- `encode(t)` inside the encoder's domain, a free draw outside it (40_tickclock_arith.md R89); with
the count of draws afterwards. -/
def encodeOrDraw (t : Nat) (n : Nat) : EncodedWidth × Nat :=
  if t ≤ encodeMax then (encodeTicks t, n) else (drawn n, n + 1)

/-- A filler tick count is inside the encoder's domain (41_generator.md R101). -/
def fillerFits (f : Int) : Bool := decide (0 ≤ f ∧ f ≤ encodeMax)

/-- `storeFiller`: the value for slot 0 from the pending widths, a free draw under TimingViolation
(41_generator.md R101); with the count of draws afterwards. -/
def fillerValue (c : Config) (g : Gen) (n : Nat) : Except Fault (EncodedWidth × Nat) :=
  match fillerTicks c g with
  | .error f => .error f
  | .ok f =>
    if fillerFits f then .ok (encodeTicks f.toNat, n)
    else raise .timingViolation (.ok (drawn n, n + 1))

/-- Stores the filler in slot 0 of the pending side: the end of G.INIT's table work and of G.SETW
(41_generator.md R100, R101). -/
def storeFiller (c : Config) (g : Gen) (n : Nat) : Except Fault (Gen × Nat) :=
  match fillerValue c g n with
  | .error f => .error f
  | .ok (e, n') => .ok ({ g with next := writeSlot g.next 0 e }, n')

/-! ### G.INIT's table -/

/-- The neutral encoding of channel `k`, k from 1; each channel draws its own value when the neutral
width is outside the encoder's domain (41_generator.md R100, 40_tickclock_arith.md R89). -/
def neutralEntry (c : Config) (n k : Nat) : EncodedWidth :=
  (encodeOrDraw (widthTicks c neutralUs) (n + (k - 1))).1

/-- The count of draws after the `m` neutral channels. -/
def neutralDraws (c : Config) (n m : Nat) : Nat :=
  if widthTicks c neutralUs ≤ encodeMax then n else n + m

/-- Channels 1 to m of the pending side set to the neutral width, the other slots kept
(41_generator.md R100). -/
def neutralTable (c : Config) (t : Table) (n m : Nat) : Table :=
  t.mapIdx fun i e => if 1 ≤ i ∧ i ≤ m then some (neutralEntry c n i) else e

/-! ### The compare match and the handler -/

/-- HeaderStep's end: the slot's current encoding is loaded and the Tail phase entered
(41_generator.md R104). -/
def loadWork (g : Gen) : Except Fault Gen :=
  match readSlot .cur g.cur g.aidx.toNat with
  | .error f => .error f
  | .ok e => .ok { g with work := e, phase := .tail }

/-- HeaderStep (41_generator.md R104): re-arm by the header, advance the slot, commit at the frame
boundary, load. -/
def headerStep (c : Config) (g : Gen) : Except Fault Gen :=
  if g.nch < g.aidx + 1 then
    match copySlots g.next g.cur (g.nch.toNat + 1) with
    | .error f => .error f
    | .ok cur' =>
      loadWork { g with ocr := g.ocr + hdrStep c, aidx := 0, cur := cur', sync := signal g.sync }
  else
    loadWork { g with ocr := g.ocr + hdrStep c, aidx := g.aidx + 1 }

/-- What one TailStep adds to OCR: the remainder, or half a cycle, or nothing (41_generator.md R105). -/
def tailAdd (w : EncodedWidth) : Count8 :=
  if w.rem ≠ 0 then w.rem
  else if w.ovf ≠ 0 ∧ w.half then BitVec.ofNat 8 halfOvf
  else 0

/-- WORK after one TailStep (41_generator.md R105). -/
def tailWork (w : EncodedWidth) : EncodedWidth :=
  if w.rem ≠ 0 then { w with rem := 0 }
  else if w.ovf ≠ 0 then { w with half := false, ovf := w.ovf - 1 }
  else w

/-- WORK has run out: the tail ends with the next match (41_generator.md R105). -/
def tailDone (w : EncodedWidth) : Bool := decide (w.rem = 0 ∧ w.ovf = 0)

/-- TailStep (41_generator.md R105): re-arm by the next piece of WORK; when WORK has run out restore
the auto-toggle and return to the Header phase, otherwise switch the auto-toggle off. -/
def tailStep (g : Gen) : Gen :=
  { g with
    ocr := g.ocr + tailAdd g.work
    work := tailWork g.work
    tog := tailDone (tailWork g.work)
    phase := if tailDone (tailWork g.work) then .header else g.phase }

/-- The comparator's own action at a match: the pin toggles when TOG = 1 (41_generator.md R103). -/
def togglePin (g : Gen) : Gen := { g with pin := if g.tog then !g.pin else g.pin }

/-- The compare-match event (41_generator.md R103). -/
def compareMatch (c : Config) (g : Gen) : Except Fault Gen :=
  if g.cie then
    match g.phase with
    | .header => headerStep c (togglePin g)
    | .tail => .ok (tailStep (togglePin g))
  else .ok (togglePin g)

/-- One count of the timer, with the compare match when CNT reaches OCR (41_generator.md R106). -/
def timerTick (c : Config) (g : Gen) : Except Fault Gen :=
  if g.cnt + 1 = g.ocr then compareMatch c { g with cnt := g.cnt + 1 }
  else .ok { g with cnt := g.cnt + 1 }

/-! ### The decoder's edge routine -/

/-- The edge is delivered to this instance: it is attached and the line is its own
(42_decoder.md R131). -/
def Dec.hears (x : Dec) (line : BitVec 8) : Bool := decide (x.att = true ∧ x.line = line)

/-- The interval an edge at `ts` closes (42_decoder.md R131). -/
def Dec.gap (x : Dec) (ts : Micros) : Micros := interval ts x.prevTs

/-- The interval an edge at `ts` closes is a synchro gap: 3000 µs or more (42_decoder.md R131). -/
def Dec.isSync (x : Dec) (ts : Micros) : Bool := decide (syncThresholdUs ≤ (x.gap ts).toNat)

/-- There is room for another width in the buffer (42_decoder.md R131). -/
def Dec.hasRoom (x : Dec) : Bool := decide (x.widx.toNat < decCapacity)

/-- The synchro branch: commit the count, restart the cursor, raise the flags, estimate the period
(42_decoder.md R131). -/
def Dec.syncEdge (x : Dec) (ts : Micros) : Dec :=
  { x with
    prevTs := ts
    ccnt := x.widx
    widx := 0
    sync := signal x.sync
    periodEst := interval ts x.psyncTs
    psyncTs := ts }

/-- The channel branch: store the interval at the cursor and advance it (42_decoder.md R131). -/
def Dec.storeEdge (x : Dec) (ts : Micros) : Dec :=
  { x with
    prevTs := ts
    buf := x.buf.setIfInBounds x.widx.toNat (x.gap ts)
    widx := x.widx + 1 }

/-- The overflow branch: the interval is dropped, the edge is remembered (42_decoder.md R131). -/
def Dec.dropEdge (x : Dec) (ts : Micros) : Dec := { x with prevTs := ts }

/-- `onFallingEdge` for an instance that hears the edge (42_decoder.md R131). -/
def Dec.onEdge (x : Dec) (ts : Micros) : Dec :=
  if x.isSync ts then x.syncEdge ts
  else if x.hasRoom then x.storeEdge ts
  else raise .capacityOverflow (x.dropEdge ts)

/-- One edge on `line` at `ts` as one instance sees it; an instance that does not hear it is untouched
(42_decoder.md R131). -/
def Dec.edge (x : Dec) (line : BitVec 8) (ts : Micros) : Dec :=
  if x.hears line then x.onEdge ts else x

end Sys2Proof.Machine
end

