-- ==== Sys2Proof/Machine/Decoder.lean ====
section
/-! DEFINITION. The meanings of the decoder's events (42_decoder.md). -/

namespace Sys2Proof.Machine

/-- The state D.ATTACH gives an instance, whether or not a capture slot was free (42_decoder.md R130). -/
def attached (slotOk : Bool) (line : BitVec 8) : Dec :=
  { att := slotOk, bound := slotOk, line := line, buf := Vector.replicate decCapacity 0,
    widx := widxInvalid, ccnt := widxInvalid, prevTs := 0, psyncTs := 0, periodEst := 0, sync := 0 }

/-- D.ATTACH (42_decoder.md R130). -/
def execDAttach (inst : BitVec 3) (slotOk : Bool) (line : BitVec 8) (s : State) :
    Host.Outcome State Fault Refusal :=
  onDec s inst fun _ =>
    if slotOk then (attached slotOk line, 1)
    else raise .captureUnavailable (attached slotOk line, 0)

/-- D.EDGE, delivered to every instance (42_decoder.md R131). -/
def execDEdge (line : BitVec 8) (ts : Micros) (s : State) : Host.Outcome State Fault Refusal :=
  .next ((s.mapDec fun x => x.edge line ts).respond 0)

/-- The count D.NB reports: the committed count, or 0 above the capacity (42_decoder.md R132). -/
def Dec.count (x : Dec) : Nat := if decCapacity < x.ccnt.toNat then 0 else x.ccnt.toNat

/-- D.NB (42_decoder.md R132). -/
def execDNb (inst : BitVec 3) (s : State) : Host.Outcome State Fault Refusal :=
  onDec s inst fun x => (x, x.count)

/-- D.WIDTH's channel is valid: 1 to 9 (42_decoder.md R133). -/
def validRead (ch : BitVec 4) : Bool := decide (ch ≠ 0 ∧ ch.toNat ≤ decCapacity)

/-- The buffer entry of channel `ch`, which is index `ch` - 1 (42_decoder.md R133, 20_memory.md R41). -/
def Dec.width (x : Dec) (ch : BitVec 4) : Nat :=
  if validRead ch then (x.buf[ch.toNat - 1]?.getD 0).toNat else raise .invalidChannel 0

/-- D.WIDTH (42_decoder.md R133). -/
def execDWidth (inst : BitVec 3) (ch : BitVec 4) (s : State) : Host.Outcome State Fault Refusal :=
  onDec s inst fun x => (x, x.width ch)

/-- D.PERIOD (42_decoder.md R134). -/
def execDPeriod (inst : BitVec 3) (s : State) : Host.Outcome State Fault Refusal :=
  onDec s inst fun x => (x, x.periodEst.toNat)

/-- D.ISSYNC (42_decoder.md R135). -/
def execDIssync (inst : BitVec 3) (mask : FlagSet) (s : State) : Host.Outcome State Fault Refusal :=
  onDec s inst fun x => ({ x with sync := pollRest x.sync mask }, (pollValue x.sync mask).toNat)

/-- D.SUSPEND (42_decoder.md R136). -/
def execDSuspend (inst : BitVec 3) (s : State) : Host.Outcome State Fault Refusal :=
  onDec s inst fun x => ({ x with att := false, widx := widxInvalid }, 0)

/-- D.RESUME: only an instance that was once attached is reattached (42_decoder.md R137). -/
def execDResume (inst : BitVec 3) (now : Micros) (s : State) : Host.Outcome State Fault Refusal :=
  onDec s inst fun x => ({ x with prevTs := now, att := x.bound }, 0)

end Sys2Proof.Machine
end

