-- ==== Sys2Proof/Machine/Generator.lean ====
section
/-! DEFINITION. The meanings of the generator's events (41_generator.md). -/

namespace Sys2Proof.Machine

/-- The generator a failed G.INIT leaves: disabled, everything else kept (41_generator.md R100). -/
def initFailed (g : Gen) : Gen := { g with en := false, cie := false, tog := false }

/-- The configuration and the neutral channels, before the filler (41_generator.md R100). -/
def initTable (c : Config) (g : Gen) (n : Nat) (pol : Polarity) (nch : BitVec 4) (period : Micros) : Gen :=
  { g with
    pol := pol
    nch := clampChannels nch
    periodUs := clampPeriod period
    next := neutralTable c g.next n (clampChannels nch).toNat }

/-- The rest of G.INIT, after the filler: cursor, flags, pin, enables (41_generator.md R100). -/
def initEnable (g : Gen) : Gen :=
  { g with
    aidx := g.nch
    phase := .header
    sync := 0
    pin := idleLevel g.pol
    tog := true
    cie := true
    en := true }

/-- G.INIT (41_generator.md R100). -/
def execGInit (allocOk : Bool) (pol : Polarity) (nch : BitVec 4) (periodUs : Micros) (s : State) :
    Host.Outcome State Fault Refusal :=
  if nch = 0 then .refused .channelCountZero
  else if allocOk then
    match storeFiller s.cfg (initTable s.cfg s.gen s.draws pol nch periodUs)
        (neutralDraws s.cfg s.draws (clampChannels nch).toNat) with
    | .error f => .fault f
    | .ok (g, n) => .next (((s.setGen (initEnable g)).setDraws n).respond 1)
  else raise .resourceExhaustion (.next ((s.setGen (initFailed s.gen)).respond 0))

/-- G.SETW's new pending channel entry, before the filler (41_generator.md R101). -/
def setChannel (c : Config) (g : Gen) (n : Nat) (ch : BitVec 4) (widthUs : Micros) : Gen :=
  { g with next := writeSlot g.next ch.toNat (encodeOrDraw (widthTicks c widthUs.toNat) n).1 }

/-- G.SETW's channel is valid: 1 to NCH (41_generator.md R101). -/
def validChannel (g : Gen) (ch : BitVec 4) : Bool := decide (ch ≠ 0 ∧ ch ≤ g.nch)

/-- G.SETW (41_generator.md R101). -/
def execGSetw (ch : BitVec 4) (widthUs : Micros) (s : State) : Host.Outcome State Fault Refusal :=
  if s.gen.en then
    if validChannel s.gen ch then
      match storeFiller s.cfg (setChannel s.cfg s.gen s.draws ch widthUs)
          (encodeOrDraw (widthTicks s.cfg widthUs.toNat) s.draws).2 with
      | .error f => .fault f
      | .ok (g, n) => .next (((s.setGen g).setDraws n).respond 0)
    else raise .invalidChannel (.next (s.respond 0))
  else .next (s.respond 0)

/-- G.POLL (41_generator.md R102). -/
def execGPoll (mask : FlagSet) (s : State) : Host.Outcome State Fault Refusal :=
  .next ((s.setGen { s.gen with sync := pollRest s.gen.sync mask }).respond
    (pollValue s.gen.sync mask).toNat)

/-- G.CMATCH (41_generator.md R103). -/
def execGCmatch (s : State) : Host.Outcome State Fault Refusal :=
  onGen s (compareMatch s.cfg s.gen) 0

/-- G.TICK (41_generator.md R106). -/
def execGTick (s : State) : Host.Outcome State Fault Refusal :=
  onGen s (timerTick s.cfg s.gen) 0

end Sys2Proof.Machine
end

