-- ==== Sys2Proof/Machine/TickClock.lean ====
section
/-! DEFINITION. The meanings of T.US2T, T.ENC and T.DEC (40_tickclock_arith.md). They read only the
configuration and touch no state but the response. -/

namespace Sys2Proof.Machine

/-- T.US2T (40_tickclock_arith.md R80). -/
def execTUs2t (us : Micros) (s : State) : Host.Outcome State Fault Refusal :=
  .next (s.respond (us2ticks s.cfg us.toNat))

/-- T.ENC (40_tickclock_arith.md R84); above the domain the response is a free value (R89). -/
def execTEnc (ticks : BitVec 15) (s : State) : Host.Outcome State Fault Refusal :=
  .next ((s.setDraws (encodeOrDraw ticks.toNat s.draws).2).respond
    (pack (encodeOrDraw ticks.toNat s.draws).1).toNat)

/-- T.DEC (40_tickclock_arith.md R85). -/
def execTDec (ew : BitVec 16) (s : State) : Host.Outcome State Fault Refusal :=
  .next (s.respond (decodedTicks (unpack ew)))

end Sys2Proof.Machine
end

