-- ==== Sys2Proof/Machine/Dispatch.lean ====
section
/-! DEFINITION. One arm per event, each a direct call of its meaning. -/

namespace Sys2Proof.Machine

def exec (i : Instr) (s : State) : Host.Outcome State Fault Refusal :=
  match i with
  | .tUs2t us => Sys2Proof.Machine.execTUs2t us s
  | .gInit allocOk pol nch periodUs => Sys2Proof.Machine.execGInit allocOk pol nch periodUs s
  | .gSetw ch widthUs => Sys2Proof.Machine.execGSetw ch widthUs s
  | .gPoll mask => Sys2Proof.Machine.execGPoll mask s
  | .gCmatch => Sys2Proof.Machine.execGCmatch s
  | .gTick => Sys2Proof.Machine.execGTick s
  | .dAttach inst slotOk line => Sys2Proof.Machine.execDAttach inst slotOk line s
  | .dEdge line ts => Sys2Proof.Machine.execDEdge line ts s
  | .dNb inst => Sys2Proof.Machine.execDNb inst s
  | .dWidth inst ch => Sys2Proof.Machine.execDWidth inst ch s
  | .dPeriod inst => Sys2Proof.Machine.execDPeriod inst s
  | .dIssync inst mask => Sys2Proof.Machine.execDIssync inst mask s
  | .dSuspend inst => Sys2Proof.Machine.execDSuspend inst s
  | .dResume inst now => Sys2Proof.Machine.execDResume inst now s
  | .tEnc ticks => Sys2Proof.Machine.execTEnc ticks s
  | .tDec ew => Sys2Proof.Machine.execTDec ew s

end Sys2Proof.Machine
end

