-- ==== Sys2Proof/Machine/Step.lean ====
section
/-! DEFINITION. One step of the machine: the next event in the total order is one atomic transition
(20_memory.md R46, R48). -/

namespace Sys2Proof.Machine

/-- One step: take the next event and run it. Where no event is left the run ends
(60_exceptions.md R186); a reserved word is refused, with no state change (30_encoding.md R64). -/
def step (s : State) : Host.Outcome State Fault Refusal :=
  match takeEvent s with
  | none => .refused .noEvent
  | some (.error e, _) => .refused (.reservedWord e)
  | some (.ok i, s') => exec i s'

/-- The opcode-table word `w` of `nbits` bits, put where `step` takes its next event: in front of the
events still to come (log 2). It stands for an agent issuing that event. -/
def State.withFetchWord (s : State) (nbits w : Nat) : State :=
  issueFirst s (BitVec.ofNat 32 (w % 2 ^ nbits))

end Sys2Proof.Machine
end

