-- ==== Sys2Proof/Machine/Agents.lean ====
section
/-! DEFINITION. Which agent issues an event and in which context it runs (00_scope.md R2,
60_exceptions.md R180), and the part of the block it works on. No meaning reads these: the block checks no context. -/

namespace Sys2Proof

/-- The agent that issues an event (00_scope.md R2, 30_encoding.md R63). -/
def Instr.agent : Instr → Agent
  | .tUs2t _ => .host
  | .gInit _ _ _ _ => .host
  | .gSetw _ _ => .host
  | .gPoll _ => .host
  | .gCmatch => .timer
  | .gTick => .timer
  | .dAttach _ _ _ => .host
  | .dEdge _ _ => .capture
  | .dNb _ => .host
  | .dWidth _ _ => .host
  | .dPeriod _ => .host
  | .dIssync _ _ => .host
  | .dSuspend _ => .host
  | .dResume _ _ => .host
  | .tEnc _ => .host
  | .tDec _ => .host

/-- The part of the block an event works on (10_state.md R10, R21). -/
def Instr.part : Instr → Part
  | .tUs2t _ => .tickClock
  | .gInit _ _ _ _ => .generator
  | .gSetw _ _ => .generator
  | .gPoll _ => .generator
  | .gCmatch => .generator
  | .gTick => .generator
  | .dAttach _ _ _ => .decoder
  | .dEdge _ _ => .decoder
  | .dNb _ => .decoder
  | .dWidth _ _ => .decoder
  | .dPeriod _ => .decoder
  | .dIssync _ _ => .decoder
  | .dSuspend _ => .decoder
  | .dResume _ _ => .decoder
  | .tEnc _ => .tickClock
  | .tDec _ => .tickClock

/-- The two contexts that stand in place of privilege (60_exceptions.md R180). -/
def Instr.context (i : Instr) : Context :=
  match i.agent with
  | .host => .host
  | .timer => .interrupt
  | .capture => .interrupt

end Sys2Proof
end

