-- ==== Sys2Proof/Machine/Conditions.lean ====
section
/-! DEFINITION. Which of the five conditions an event raises in a state (60_exceptions.md R170). The
meanings do not record a condition, so this reading of the same branches is what claims about
conditions are stated with (log 7). -/

namespace Sys2Proof.Machine

/-- The filler of this generator's pending set is outside the encoder's domain: TimingViolation
(60_exceptions.md R170 E4). -/
def fillerViolates (c : Config) (g : Gen) : Bool :=
  match fillerTicks c g with
  | .error _ => false
  | .ok f => !fillerFits f

/-- An edge overflows this instance's buffer: CapacityOverflow (60_exceptions.md R170 E3). -/
def Dec.overflows (x : Dec) (line : BitVec 8) (ts : Micros) : Bool :=
  x.hears line && !x.isSync ts && !x.hasRoom

/-- The instance an event names exists. -/
def hasInstance (s : State) (d : BitVec 3) : Bool := decide (d.toNat < s.dec.length)

/-- The conditions an event raises (60_exceptions.md R170). -/
def conditionsOf (i : Instr) (s : State) : List Condition :=
  match i with
  | .tUs2t _ => []
  | .gInit allocOk pol nch period =>
    if nch = 0 then []
    else if !allocOk then [.resourceExhaustion]
    else if fillerViolates s.cfg (initTable s.cfg s.gen s.draws pol nch period) then [.timingViolation]
    else []
  | .gSetw ch width =>
    if !s.gen.en then []
    else if !validChannel s.gen ch then [.invalidChannel]
    else if fillerViolates s.cfg (setChannel s.cfg s.gen s.draws ch width) then [.timingViolation]
    else []
  | .gPoll _ => []
  | .gCmatch => []
  | .gTick => []
  | .dAttach d slotOk _ => if hasInstance s d && !slotOk then [.captureUnavailable] else []
  | .dEdge line ts => if s.dec.any fun x => x.overflows line ts then [.capacityOverflow] else []
  | .dNb _ => []
  | .dWidth d ch => if hasInstance s d && !validRead ch then [.invalidChannel] else []
  | .dPeriod _ => []
  | .dIssync _ _ => []
  | .dSuspend _ => []
  | .dResume _ _ => []
  | .tEnc _ => []
  | .tDec _ => []

end Sys2Proof.Machine
end

