-- ==== Sys2Proof/Safety.lean ====
section
/-! DEFINITION. What counts as a sound configuration and a good state, and finite runs of events, in the
terms the claims use (00_scope.md R5, 10_state.md R22, R24, 60_exceptions.md R186). -/

namespace Sys2Proof.Machine

/-! ### Configurations and driving -/

/-- The header constraint: the Header phase makes a header of HDR_TICKS ticks (00_scope.md R5 (a)). -/
abbrev HeaderSound (c : Config) : Prop :=
  if c.tickDen < c.tickNum then 1 ≤ hdrTicks c ∧ hdrTicks c ≤ 255 else hdrTicks c = 256

/-- The closed way of driving: no compare-match event is issued directly (41_generator.md R107). -/
def closedDrive (l : List Instr) : Bool := l.all fun i => decide (i ≠ .gCmatch)

/-- The open way of driving: no timer count is issued (41_generator.md R107). -/
def openDrive (l : List Instr) : Bool := l.all fun i => decide (i ≠ .gTick)

/-! ### Good states -/

/-- Slot `i` of a table holds a value. -/
def specified (t : Table) (i : Nat) : Bool :=
  match t[i]? with
  | some (some _) => true
  | some none => false
  | none => false

/-- Slots 0 to `n` of a table hold values. -/
abbrev FilledTo (t : Table) (n : Nat) : Prop := ∀ i, i ≤ n → specified t i = true

/-- The configuration is in range and there is one decoder instance for each number below NDEC. -/
abbrev ConfigOk (s : State) : Prop := s.cfg.wf = true ∧ s.dec.length = s.cfg.ndec

/-- The ranges of 10_state.md R22 (c) for NCH, PERIOD_US and AIDX; they hold from reset on. -/
abbrev RangesOk (g : Gen) : Prop :=
  1 ≤ g.nch.toNat ∧ g.nch.toNat ≤ maxCh ∧ periodMinUs ≤ g.periodUs.toNat ∧
    g.periodUs.toNat ≤ periodMaxUs ∧ g.aidx.toNat ≤ g.nch.toNat

/-- The handler is enabled exactly when the engine is, a disabled engine leaves the pin alone, and in
the Header phase the pin toggles (10_state.md R22 (c), 60_exceptions.md R175). -/
abbrev ControlsOk (g : Gen) : Prop :=
  g.cie = g.en ∧ (g.tog = true → g.en = true) ∧
    (g.en = true → g.phase = .header → g.tog = true)

/-- The next handler step is a frame boundary (41_generator.md R104). -/
abbrev AtBoundary (g : Gen) : Prop := g.phase = .header ∧ g.aidx = g.nch

/-- Every slot a rule can read holds a value: the pending side once the engine is enabled, the current
side from the first commit on (10_state.md R24). -/
abbrev TablesOk (g : Gen) : Prop :=
  g.en = true → FilledTo g.next g.nch.toNat ∧ (¬ AtBoundary g → FilledTo g.cur g.nch.toNat)

/-- A cursor or count is 0 to 9 or the sentinel (10_state.md R22 (d)). -/
abbrev CursorOk (v : BitVec 8) : Prop := v.toNat ≤ decCapacity ∨ v = widxInvalid

/-- A decoder instance is good: both cursors legal, and attached only if once bound
(10_state.md R22 (d), R18). -/
abbrev DecOk (x : Dec) : Prop := CursorOk x.widx ∧ CursorOk x.ccnt ∧ (x.att = true → x.bound = true)

/-- The invariant of the whole machine: 10_state.md R22 (c), (d) and what R24 rests on. -/
abbrev Inv (s : State) : Prop :=
  ConfigOk s ∧ RangesOk s.gen ∧ ControlsOk s.gen ∧ TablesOk s.gen ∧ ∀ x ∈ s.dec, DecOk x

/-- The pending set is consistent: when its filler is in the encoder's domain, slot 0 holds it
(41_generator.md R111, 20_memory.md R50). -/
def PendingConsistent (s : State) : Prop :=
  s.gen.en = true → ∀ f, fillerTicks s.cfg s.gen = .ok f → fillerFits f = true →
    s.gen.next[0]? = some (some (encodeTicks f.toNat))

/-! ### Finite runs -/

/-- The state after a list of events, none if one of them stops (60_exceptions.md R186). -/
def runEvents : List Instr → State → Option State
  | [], s => some s
  | i :: rest, s =>
    match exec i s with
    | .next t => runEvents rest t
    | .fault _ => none
    | .refused _ => none

/-- The state after `k` timer counts, none if one of them stops. -/
def runTicks : Nat → State → Option State
  | 0, s => some s
  | k + 1, s =>
    match exec .gTick s with
    | .next t => runTicks k t
    | .fault _ => none
    | .refused _ => none

/-- The next timer count is a compare match (41_generator.md R106). -/
abbrev MatchDue (g : Gen) : Prop := g.cnt + 1 = g.ocr

/-- The event is a compare match that commits: a boundary HeaderStep of the running handler, which is the
one place that signals G_SYNC (41_generator.md R103, R104, R106, 43_registry.md R160). -/
def commitsAt (i : Instr) (s : State) : Bool :=
  decide ((i = .gCmatch ∨ (i = .gTick ∧ MatchDue s.gen)) ∧ s.gen.cie = true ∧ s.gen.phase = .header ∧
    s.gen.nch < s.gen.aidx + 1)

/-- The event is an edge that instance `d` hears and that closes a synchro gap, which is the one place
that signals D_SYNC[d] (42_decoder.md R131, 43_registry.md R160). -/
def synchroAt (d : Nat) (i : Instr) (s : State) : Bool :=
  match i, s.dec[d]? with
  | .dEdge line ts, some x =>
    decide (x.att = true ∧ x.line = line ∧ syncThresholdUs ≤ (ts.toNat + tsMod - x.prevTs.toNat) % tsMod)
  | _, _ => false

/-- No event of the list is a `bad` one in the state it runs in (43_registry.md R163). -/
def avoids (bad : Instr → State → Bool) : List Instr → State → Bool
  | [], _ => true
  | i :: rest, s =>
    !bad i s &&
      match exec i s with
      | .next t => avoids bad rest t
      | .fault _ => true
      | .refused _ => true

/-- The ticks the slots 0 to n-1 of a table last, each a header and a tail (41_generator.md R109,
R111); slots without a value count for nothing. -/
def slotsTicks (c : Config) (t : Table) : Nat → Nat
  | 0 => 0
  | k + 1 =>
    slotsTicks c t k +
      match t[k]? with
      | some (some e) => headerLen c + segTicks e
      | some none => 0
      | none => 0

/-- The timestamps of edges that follow an edge at `t0` by the given intervals. -/
def stampsFrom (t0 : Micros) : List Micros → List Micros
  | [] => []
  | g :: rest => (t0 + g) :: stampsFrom (t0 + g) rest

/-- The sum of intervals modulo 65536. -/
def sumGaps : List Micros → Micros
  | [] => 0
  | g :: rest => g + sumGaps rest

/-- A falling edge of the pin between two states (60_exceptions.md R176, 41_generator.md R113). -/
def pinFell (s t : State) : Bool := s.gen.pin && !t.gen.pin

/-- The timestamp a listener gives an edge at a tick, up to a constant (70_reset_and_hazards.md R219). -/
def edgeStamp (c : Config) (tick offset : Nat) : Micros :=
  BitVec.ofNat 16 (tick * c.tickNum / c.tickDen + offset)

end Sys2Proof.Machine
end

