-- ==== Sys2Proof/Certificates/Slice0/Obligations.lean ====
section
/-! DEFINITION. The statements for the provers, one `Obligations.<Name>` each; OBLIGATIONS.json lists
them. A docstring names the rule a statement formalises, and says where it rests on a decision of the
spec's own (92_eei_decisions.md) or on a log entry of the model. -/

open Sys2Proof Sys2Proof.Machine

/-! ### Encoding and the step -/

/-- Decoding the word of a well-formed event gives the event back (30_encoding.md section 5, the decoding
procedure at its end, with the formats of section 1 and the rows of section 2; the encoding is decision
D1). -/
def Obligations.DecodeOfEncode : Prop :=
  ∀ (ndec : Nat) (i : Instr), i.wf ndec = true → decodeWord ndec (encode i) = .ok i

/-- A word that decodes is exactly the word of the event it decodes to, and that event is well formed:
one word per event (30_encoding.md section 1; decision D1). -/
def Obligations.EncodeOfDecode : Prop :=
  ∀ (ndec : Nat) (w : EventWord) (i : Instr),
    decodeWord ndec w = .ok i → encode i = w ∧ i.wf ndec = true

/-- A word is an operation of the table if and only if `(w & mask) == match` for its row, with every
instance number present (30_encoding.md section 2; decision D1). -/
def Obligations.WordIsRowExactlyWhenMaskMatches : Prop :=
  ∀ (w : EventWord) (op : Op),
    (w &&& op.maskWord = op.matchWord) ↔ ∃ i, decodeWord 8 w = .ok i ∧ i.op = op

/-- A reserved word is refused by the step, by the reason that makes it reserved (30_encoding.md section
3; decision D1), and a step with no event left is refused (the model's choice: log 2). -/
def Obligations.ReservedWordsAreRefused : Prop :=
  (∀ s : State, s.events = [] → step s = .refused .noEvent) ∧
  ∀ (s : State) (w : EventWord) (rest : List EventWord), s.events = w :: rest →
    ((w.extractLsb' 27 5 = 0x00 ∨ w.extractLsb' 27 5 = 0x07 ∨ 0x12 ≤ (w.extractLsb' 27 5).toNat) →
      step s = .refused (.reservedWord .unknownOpcode)) ∧
    (∀ op : Op, w.extractLsb' 27 5 = op.code → w &&& op.maskWord ≠ op.matchWord →
      step s = .refused (.reservedWord .mustBeZero)) ∧
    (∀ i d, encode i = w → i.inst? = some d → s.cfg.ndec ≤ d.toNat →
      step s = .refused (.reservedWord .absentInstance))

/-- The words of 30_encoding.md section 5's table, all sixteen rows, decode to the events they are written
for (decisions D1, D32). -/
def Obligations.SyntaxTableWordsDecode : Prop :=
  decodeWord 2 0x080005DC = .ok (.tUs2t 1500) ∧
  decodeWord 2 0x8000012C = .ok (.tEnc 300) ∧
  decodeWord 2 0x8800818A = .ok (.tDec 0x818A) ∧
  decodeWord 2 0x10244E20 = .ok (.gInit true .positive 4 20000) ∧
  decodeWord 2 0x180105DC = .ok (.gSetw 1 1500) ∧
  decodeWord 2 0x20000001 = .ok (.gPoll 0x01) ∧
  decodeWord 2 0x28000000 = .ok .gCmatch ∧
  decodeWord 2 0x30000000 = .ok .gTick ∧
  decodeWord 2 0x40000103 = .ok (.dAttach 0 true 3) ∧
  decodeWord 2 0x48033A98 = .ok (.dEdge 3 15000) ∧
  decodeWord 2 0x50000000 = .ok (.dNb 0) ∧
  decodeWord 2 0x59000002 = .ok (.dWidth 1 2) ∧
  decodeWord 2 0x60000000 = .ok (.dPeriod 0) ∧
  decodeWord 2 0x68000082 = .ok (.dIssync 0 0x82) ∧
  decodeWord 2 0x70000000 = .ok (.dSuspend 0) ∧
  decodeWord 2 0x7800C350 = .ok (.dResume 0 50000)

/-- The step takes the oldest event still to come and runs it; nothing else stands around `exec`
(20_memory.md section 3, 30_encoding.md section 5; how events reach the step is the model's choice,
log 2). -/
def Obligations.StepRunsTheDecodedEvent : Prop :=
  ∀ (s : State) (w : EventWord) (rest : List EventWord) (i : Instr),
    s.events = w :: rest → decodeWord s.cfg.ndec w = .ok i →
      step s = exec i { s with events := rest }

/-- No event writes the configuration, adds or removes an event still to come, or takes back a drawn free
value, and every event that completes responds (00_scope.md section 4, 30_encoding.md section 4; the
fields are the model's own, log 1, 2, 4 and 5). -/
def Obligations.ConfigurationIsNeverWritten : Prop :=
  ∀ (i : Instr) (s t : State), exec i s = .next t →
    t.cfg = s.cfg ∧ t.events = s.events ∧ s.draws ≤ t.draws ∧ t.dec.length = s.dec.length ∧
      ∃ r, t.resp = some r

/-- Every response lies in the range of 30_encoding.md section 4 (decision D2). -/
def Obligations.ResponsesLieInTheirRanges : Prop :=
  ∀ (i : Instr) (s t : State), exec i s = .next t →
    ∃ r : Int, t.resp = some r ∧
      match i with
      | .tUs2t _ => 0 ≤ r
      | .gInit allocOk _ _ _ => r = if allocOk then 1 else 0
      | .gSetw _ _ => r = 0
      | .gPoll _ => 0 ≤ r ∧ r ≤ 255
      | .gCmatch => r = 0
      | .gTick => r = 0
      | .dAttach _ slotOk _ => r = if slotOk then 1 else 0
      | .dEdge _ _ => r = 0
      | .dNb _ => 0 ≤ r ∧ r ≤ 9
      | .dWidth _ _ => 0 ≤ r ∧ r ≤ 65535
      | .dPeriod _ => 0 ≤ r ∧ r ≤ 65535
      | .dIssync _ _ => 0 ≤ r ∧ r ≤ 255
      | .dSuspend _ => r = 0
      | .dResume _ _ => r = 0
      | .tEnc _ => 0 ≤ r ∧ r ≤ 65535
      | .tDec _ => -128 ≤ r ∧ r ≤ 32767

/-! ### Tick conversion and arithmetic -/

/-- T.US2T answers the tick count nearest to the (calibrated) microseconds, an exact half going up, and
changes nothing else (40_tickclock_arith.md section 1; decisions D6, D7, D40). -/
def Obligations.UsToTicksRoundsToNearestHalfUp : Prop :=
  ∀ (us : Micros) (s : State), 0 < s.cfg.tickNum →
    ∃ r : Nat, exec (.tUs2t us) s = .next { s with resp := some (r : Int) } ∧
      2 * s.cfg.tickNum * r ≤
        2 * (if s.cfg.cal then us.toNat + us.toNat / 32 else us.toNat) * s.cfg.tickDen + s.cfg.tickNum ∧
      2 * (if s.cfg.cal then us.toNat + us.toNat / 32 else us.toNat) * s.cfg.tickDen + s.cfg.tickNum <
        2 * s.cfg.tickNum * (r + 1)

/-- T.ENC answers the packed decomposition with both guards for tick counts up to 32752, and some 16-bit
value above (40_tickclock_arith.md section 2; decisions D5, D38, D41). That the draw advances the count
`draws` is the model's own choice (log 5): the spec gives T.ENC no state to write. -/
def Obligations.EncPacksTheDecomposition : Prop :=
  ∀ (ticks : BitVec 15) (s : State),
    (ticks.toNat ≤ 32752 →
      exec (.tEnc ticks) s = .next { s with
        resp := some ((if ticks.toNat % 256 < 16 then
            32768 + 256 * (ticks.toNat / 256) + (ticks.toNat % 256 + 128)
          else if 240 < ticks.toNat % 256 then
            32768 + 256 * (ticks.toNat / 256 + 1) + (ticks.toNat % 256 - 128)
          else 256 * (ticks.toNat / 256) + ticks.toNat % 256 : Nat) : Int) }) ∧
    (32752 < ticks.toNat →
      ∃ v : BitVec 16, exec (.tEnc ticks) s =
        .next { s with resp := some (v.toNat : Int), draws := s.draws + 1 })

/-- T.DEC answers `256*ovf + rem - 128*half` of the packed value and changes nothing else
(40_tickclock_arith.md section 2, with the packing of 10_state.md section 2; decisions D5, D40). -/
def Obligations.DecUndoesTheBorrow : Prop :=
  ∀ (ew : BitVec 16) (s : State),
    exec (.tDec ew) s = .next { s with
      resp := some (256 * ((ew.toNat / 256 % 128 : Nat) : Int) + ((ew.toNat % 256 : Nat) : Int) -
        128 * ((ew.toNat / 32768 : Nat) : Int)) }

/-- `decodedTicks(encode(t)) = t` over the encoder's whole domain (40_tickclock_arith.md section 2). -/
def Obligations.DecodedTicksInvertsEncode : Prop :=
  ∀ t : Nat, t ≤ 32752 → decodedTicks (encodeTicks t) = (t : Int)

/-- The guard invariant: every encoded remainder lies in 16..240 (40_tickclock_arith.md section 2,
10_state.md section 7; the upper guard is decision D38). -/
def Obligations.EncodeKeepsTheGuard : Prop :=
  ∀ t : Nat, t ≤ 32752 → 16 ≤ (encodeTicks t).rem.toNat ∧ (encodeTicks t).rem.toNat ≤ 240

/-- The handler makes exactly the encoded ticks for t in 16..32752, and 128 too many for t in 0..15
(40_tickclock_arith.md section 4, an inference the spec marks as its own). -/
def Obligations.HandlerTicksOfEncode : Prop :=
  ∀ t : Nat, t ≤ 32752 → segTicks (encodeTicks t) = if t < 16 then t + 128 else t

/-- Packing an EncodedWidth into 16 bits loses nothing in either direction (10_state.md section 2;
decision D5). -/
def Obligations.PackingIsABijection : Prop :=
  (∀ e : EncodedWidth, unpack (pack e) = e) ∧ ∀ v : BitVec 16, pack (unpack v) = v

/-! ### The generator: host events -/

/-- G.INIT with a channel count and a table: the clamped configuration, the cursor before a frame
boundary, flags cleared, the pin at its idle level, everything enabled; CNT, OCR, WORK, the current side
and the slots above the channel count are kept, and every slot up to it holds a value (41_generator.md
section 1; decisions D13, D14, D15, D16, D18, D19). -/
def Obligations.InitConfiguresAndEnables : Prop :=
  ∀ (pol : Polarity) (nch : BitVec 4) (per : Micros) (s : State), nch ≠ 0 →
    ∃ t, exec (.gInit true pol nch per) s = .next t ∧
      t = { s with gen := t.gen, resp := some 1, draws := t.draws } ∧
      t.gen = { s.gen with
        pol := pol
        nch := BitVec.ofNat 4 (min nch.toNat 8)
        periodUs := BitVec.ofNat 16 (min (max per.toNat 10000) 40000)
        next := t.gen.next
        aidx := BitVec.ofNat 4 (min nch.toNat 8)
        phase := .header
        sync := 0
        pin := decide (pol = .negative)
        tog := true
        cie := true
        en := true } ∧
      (∀ k, k ≤ min nch.toNat 8 → specified t.gen.next k = true) ∧
      ∀ k, min nch.toNat 8 < k → t.gen.next[k]? = s.gen.next[k]?

/-- G.INIT stores the neutral width in channels 1 to NCH and the filler that makes the period in slot 0;
a filler outside 0..32752, and a neutral width above 32752 ticks, are values drawn freely
(41_generator.md section 1, 40_tickclock_arith.md sections 2 and 3; decisions D11, D12, D41, D42). The
count `draws` of free values is the model's own field, a DESIGN CHOICE (log 5). -/
def Obligations.InitStoresNeutralWidthsAndFiller : Prop :=
  ∀ (pol : Polarity) (nch : BitVec 4) (per : Micros) (s t : State) (w : Nat),
    exec (.gInit true pol nch per) s = .next t →
    w = (if 1500 < s.cfg.headerUs then 0 else us2ticks s.cfg (1500 - s.cfg.headerUs)) →
    (w ≤ 32752 →
      (∀ k, 1 ≤ k → k ≤ min nch.toNat 8 → t.gen.next[k]? = some (some (encodeTicks w))) ∧
      ∀ f : Int, f = (us2ticks s.cfg (min (max per.toNat 10000) 40000) : Int) -
          us2ticks s.cfg s.cfg.headerUs * ((min nch.toNat 8 : Nat) + 1) - (min nch.toNat 8 : Nat) * w →
        (0 ≤ f ∧ f ≤ 32752 →
          t.gen.next[0]? = some (some (encodeTicks f.toNat)) ∧ t.draws = s.draws) ∧
        (f < 0 ∨ 32752 < f →
          (∃ v : BitVec 16, t.gen.next[0]? = some (some (unpack v))) ∧ t.draws = s.draws + 1)) ∧
    (32752 < w →
      (∀ k, 1 ≤ k → k ≤ min nch.toNat 8 → ∃ v : BitVec 16, t.gen.next[k]? = some (some (unpack v))) ∧
      ∃ f : Int, fillerTicks s.cfg t.gen = .ok f ∧
        (0 ≤ f ∧ f ≤ 32752 → t.gen.next[0]? = some (some (encodeTicks f.toNat)) ∧
          t.draws = s.draws + min nch.toNat 8) ∧
        (f < 0 ∨ 32752 < f →
          (∃ v : BitVec 16, t.gen.next[0]? = some (some (unpack v))) ∧
          t.draws = s.draws + min nch.toNat 8 + 1))

/-- G.INIT whose table cannot be allocated fails and leaves the engine disabled, all else kept; G.INIT
with a channel count of 0 is refused (41_generator.md section 1, 60_exceptions.md section 1; decisions
D16, D17). -/
def Obligations.InitFailureDisables : Prop :=
  ∀ (pol : Polarity) (nch : BitVec 4) (per : Micros) (s : State),
    (nch ≠ 0 → exec (.gInit false pol nch per) s =
      .next { s with gen := { s.gen with en := false, cie := false, tog := false }, resp := some 0 }) ∧
    (nch = 0 → ∀ allocOk, exec (.gInit allocOk pol nch per) s = .refused .channelCountZero)

/-- G.SETW on a valid channel of an enabled engine writes that channel's pending slot and then the filler
computed from the new pending set, and nothing else. The tail length is 0 for a width below the header
and otherwise the ticks of the difference; a length or a filler outside the encoder's domain is drawn
freely (41_generator.md section 1, 40_tickclock_arith.md section 3; decisions D11, D12, D37, D41, D42).
The count `draws` of free values is the model's own field, a DESIGN CHOICE (log 5). -/
def Obligations.SetwStoresChannelThenFiller : Prop :=
  ∀ (ch : BitVec 4) (width : Micros) (s : State) (w : Nat),
    s.gen.en = true → ch ≠ 0 → ch ≤ s.gen.nch →
    (∀ k, 1 ≤ k → k ≤ s.gen.nch.toNat → specified s.gen.next k = true) →
    w = (if width.toNat < s.cfg.headerUs then 0 else us2ticks s.cfg (width.toNat - s.cfg.headerUs)) →
    ∃ (t : State) (f : Int), exec (.gSetw ch width) s = .next t ∧ fillerTicks s.cfg t.gen = .ok f ∧
      t = { s with gen := { s.gen with next := t.gen.next }, resp := some 0, draws := t.draws } ∧
      (w ≤ 32752 → t.gen.next[ch.toNat]? = some (some (encodeTicks w))) ∧
      (32752 < w → ∃ v : BitVec 16, t.gen.next[ch.toNat]? = some (some (unpack v))) ∧
      (0 ≤ f ∧ f ≤ 32752 → t.gen.next[0]? = some (some (encodeTicks f.toNat))) ∧
      (f < 0 ∨ 32752 < f → ∃ v : BitVec 16, t.gen.next[0]? = some (some (unpack v))) ∧
      t.draws = s.draws + (if w ≤ 32752 then 0 else 1) + (if 0 ≤ f ∧ f ≤ 32752 then 0 else 1) ∧
      ∀ k, k ≠ 0 → k ≠ ch.toNat → t.gen.next[k]? = s.gen.next[k]?

/-- The filler is the period less NCH+1 headers less the decoded pending channels
(40_tickclock_arith.md section 3). -/
def Obligations.FillerIsPeriodLessHeadersLessChannels : Prop :=
  ∀ (c : Config) (g : Gen) (e : Nat → EncodedWidth),
    (∀ k, 1 ≤ k → k ≤ g.nch.toNat → g.next[k]? = some (some (e k))) →
    fillerTicks c g = .ok ((us2ticks c g.periodUs.toNat : Int) -
      us2ticks c c.headerUs * (g.nch.toNat + 1) -
      ((List.range g.nch.toNat).map fun k => decodedTicks (e (k + 1))).sum)

/-- Rule R42: an index outside its range performs no access. G.SETW with channel 0 or above NCH changes
nothing; D.WIDTH with channel 0 or above 9 reads nothing and returns 0; D.EDGE stores nothing with the
cursor at 9 or above. -/
def Obligations.IndexOutOfRangePerformsNoAccess : Prop :=
  (∀ (ch : BitVec 4) (width : Micros) (s : State), ch = 0 ∨ s.gen.nch < ch →
    exec (.gSetw ch width) s = .next { s with resp := some 0 }) ∧
  (∀ (d : BitVec 3) (ch : BitVec 4) (s : State), d.toNat < s.dec.length → ch = 0 ∨ 9 < ch.toNat →
    exec (.dWidth d ch) s = .next { s with resp := some 0 }) ∧
  ∀ (line : BitVec 8) (ts : Micros) (s : State), ∃ t, exec (.dEdge line ts) s = .next t ∧
    ∀ (d : Nat) (x : Dec), s.dec[d]? = some x → 9 ≤ x.widx.toNat →
      ∃ y, t.dec[d]? = some y ∧ y.buf = x.buf

/-- The same G.SETW again changes nothing, whenever the width and the filler are in the encoder's domain
(40_tickclock_arith.md section 4, an inference the spec marks as its own). -/
def Obligations.SetwIsIdempotent : Prop :=
  ∀ (ch : BitVec 4) (width : Micros) (s t : State),
    exec (.gSetw ch width) s = .next t → widthTicks s.cfg width.toNat ≤ 32752 →
    (∀ f, fillerTicks s.cfg t.gen = .ok f → 0 ≤ f ∧ f ≤ 32752) →
    exec (.gSetw ch width) t = .next t

/-- A disabled engine is idle: G.SETW changes nothing, a compare match changes nothing and a timer count
only counts; and with every instance detached an edge changes nothing (70_reset_and_hazards.md section 1,
an inference the spec marks as its own; decision D20). -/
def Obligations.DisabledBlockIsIdle : Prop :=
  ∀ s : State,
    (s.gen.en = false → ∀ ch width, exec (.gSetw ch width) s = .next { s with resp := some 0 }) ∧
    (s.gen.cie = false → s.gen.tog = false →
      exec .gCmatch s = .next { s with resp := some 0 } ∧
      exec .gTick s = .next { s with gen := { s.gen with cnt := s.gen.cnt + 1 }, resp := some 0 }) ∧
    ((∀ x ∈ s.dec, x.att = false) → ∀ line ts, exec (.dEdge line ts) s = .next { s with resp := some 0 })

/-! ### The registry -/

/-- Rule R161: `pollAndClear` returns `set & mask` and clears exactly those bits, for the generator's set
(G.POLL) and for each decoder instance's (D.ISSYNC), and changes nothing else. (That the result is an
8-bit value is decision D28.) -/
def Obligations.PollReturnsAndClearsMaskedBits : Prop :=
  ∀ (m : FlagSet) (s : State),
    exec (.gPoll m) s = .next { s with
      gen := { s.gen with sync := s.gen.sync &&& ~~~m }
      resp := some ((s.gen.sync &&& m).toNat : Int) } ∧
    ∀ (d : BitVec 3) (x : Dec), s.dec[d.toNat]? = some x →
      exec (.dIssync d m) s = .next { s with
        dec := s.dec.set d.toNat { x with sync := x.sync &&& ~~~m }
        resp := some ((x.sync &&& m).toNat : Int) }

/-- The one-shot property, second half: after a poll of a bit, whatever events follow, the bit stays clear
and every later poll answers it clear until the next signal. For the generator a signal is a commit; for
a decoder instance it is a synchro edge that the instance hears (43_registry.md "One-shot property", an
inference the spec marks as its own). -/
def Obligations.PolledBitStaysClearUntilSignal : Prop :=
  ∀ (b : Nat) (m : FlagSet) (l : List Instr) (s t u : State), m.getLsbD b = true →
    runEvents l t = some u →
    (exec (.gPoll m) s = .next t → avoids commitsAt l t = true →
      u.gen.sync.getLsbD b = false ∧
      ∀ m' : FlagSet, ∃ (v : State) (r : FlagSet), exec (.gPoll m') u = .next v ∧
        v.resp = some (r.toNat : Int) ∧ r.getLsbD b = false) ∧
    (∀ d : BitVec 3, exec (.dIssync d m) s = .next t → avoids (synchroAt d.toNat) l t = true →
      ∃ y, u.dec[d.toNat]? = some y ∧ y.sync.getLsbD b = false ∧
      ∀ m' : FlagSet, ∃ (v : State) (r : FlagSet), exec (.dIssync d m') u = .next v ∧
        v.resp = some (r.toNat : Int) ∧ r.getLsbD b = false)

/-- The one-shot property, first half: after a signal, whatever events follow but a poll of the bit, the
bit stays set and the first poll of it answers it set. G.INIT (with a table) and D.ATTACH clear the set
and are left out, as their own rules say (43_registry.md "One-shot property", an inference the spec marks
as its own, read with 41_generator.md section 1 and 42_decoder.md section 1: log 14). -/
def Obligations.FirstPollAfterSignalReturnsTheBit : Prop :=
  ∀ (b : Nat) (i : Instr) (l : List Instr) (s t u : State), b < 8 →
    exec i s = .next t → runEvents l t = some u →
    (commitsAt i s = true → (∀ m, .gPoll m ∈ l → m.getLsbD b = false) →
      (∀ pol nch per, .gInit true pol nch per ∉ l) →
      ∀ m : FlagSet, m.getLsbD b = true → ∃ (v : State) (r : FlagSet), exec (.gPoll m) u = .next v ∧
        v.resp = some (r.toNat : Int) ∧ r.getLsbD b = true) ∧
    (∀ d : BitVec 3, synchroAt d.toNat i s = true → (∀ m, .dIssync d m ∈ l → m.getLsbD b = false) →
      (∀ slotOk line, .dAttach d slotOk line ∉ l) →
      ∀ m : FlagSet, m.getLsbD b = true → ∃ (v : State) (r : FlagSet), exec (.dIssync d m) u = .next v ∧
        v.resp = some (r.toNat : Int) ∧ r.getLsbD b = true)

/-! ### The generator: timer events -/

/-- A compare match toggles the pin exactly when TOG = 1; with the handler off it does nothing else, the
engine's own elements included (41_generator.md section 2; decision D4). -/
def Obligations.MatchTogglesThePinWhenTogIsSet : Prop :=
  (∀ s t : State, exec .gCmatch s = .next t → t.gen.pin = if s.gen.tog then !s.gen.pin else s.gen.pin) ∧
  ∀ s : State, s.gen.cie = false →
    exec .gCmatch s = .next { s with
      gen := { s.gen with pin := if s.gen.tog then !s.gen.pin else s.gen.pin }, resp := some 0 }

/-- HeaderStep before the last slot: the header is added to OCR when the tick is above 1 µs, the next
slot becomes active and its current encoding is loaded (41_generator.md section 2; decisions D4, D36). -/
def Obligations.HeaderStepLoadsTheNextSlot : Prop :=
  ∀ (s : State) (e : EncodedWidth), s.gen.cie = true → s.gen.phase = .header →
    s.gen.aidx.toNat + 1 ≤ s.gen.nch.toNat → s.gen.cur[s.gen.aidx.toNat + 1]? = some (some e) →
    exec .gCmatch s = .next { s with
      gen := { s.gen with
        pin := if s.gen.tog then !s.gen.pin else s.gen.pin
        ocr := if s.cfg.tickDen < s.cfg.tickNum then
            s.gen.ocr + BitVec.ofNat 8 (us2ticks s.cfg s.cfg.headerUs) else s.gen.ocr
        aidx := s.gen.aidx + 1
        work := e
        phase := .tail }
      resp := some 0 }

/-- HeaderStep after the last slot: the frame boundary commits slots 0 to NCH, raises every flag and
loads slot 0 just committed (41_generator.md section 2; decisions D4, D36, D39). -/
def Obligations.HeaderStepCommitsAtFrameBoundary : Prop :=
  ∀ s : State, s.gen.cie = true → s.gen.phase = .header → s.gen.aidx = s.gen.nch →
    (∀ k, k ≤ s.gen.nch.toNat → specified s.gen.next k = true) →
    ∃ (t : State) (e : EncodedWidth), exec .gCmatch s = .next t ∧ s.gen.next[0]? = some (some e) ∧
      t = { s with
        gen := { s.gen with
          pin := if s.gen.tog then !s.gen.pin else s.gen.pin
          ocr := if s.cfg.tickDen < s.cfg.tickNum then
            s.gen.ocr + BitVec.ofNat 8 (us2ticks s.cfg s.cfg.headerUs) else s.gen.ocr
          aidx := 0
          cur := t.gen.cur
          sync := 0xFF
          work := e
          phase := .tail }
        resp := some 0 } ∧
      (∀ k, k ≤ s.gen.nch.toNat → t.gen.cur[k]? = s.gen.next[k]?) ∧
      ∀ k, s.gen.nch.toNat < k → t.gen.cur[k]? = s.gen.cur[k]?

/-- Rule R105: the Tail phase. A remainder is added to OCR once and zeroed; else a block is counted off,
adding 128 when the half flag is set and clearing it; when both have run out the toggle is restored and
the Header phase is next, otherwise the toggle is off. The pin is the comparator's own
(MatchTogglesThePinWhenTogIsSet); every other element is kept. -/
def Obligations.TailStepConsumesTheWorkingEncoding : Prop :=
  ∀ s : State, s.gen.cie = true → s.gen.phase = .tail →
    ∃ t, exec .gCmatch s = .next t ∧
      t = { s with
        gen := { s.gen with
          pin := t.gen.pin
          ocr := t.gen.ocr
          work := t.gen.work
          tog := t.gen.tog
          phase := t.gen.phase }
        resp := some 0 } ∧
      (s.gen.work.rem ≠ 0 →
        t.gen.ocr = s.gen.ocr + s.gen.work.rem ∧ t.gen.work = { s.gen.work with rem := 0 }) ∧
      (s.gen.work.rem = 0 → s.gen.work.ovf ≠ 0 →
        t.gen.ocr = (if s.gen.work.half then s.gen.ocr + 128 else s.gen.ocr) ∧
        t.gen.work = { ovf := s.gen.work.ovf - 1, half := false, rem := 0 }) ∧
      (s.gen.work.rem = 0 → s.gen.work.ovf = 0 → t.gen.ocr = s.gen.ocr ∧ t.gen.work = s.gen.work) ∧
      (t.gen.work.rem = 0 ∧ t.gen.work.ovf = 0 → t.gen.tog = true ∧ t.gen.phase = .header) ∧
      (¬ (t.gen.work.rem = 0 ∧ t.gen.work.ovf = 0) → t.gen.tog = false ∧ t.gen.phase = .tail)

/-- One timer count advances CNT modulo 256; the compare match happens in the same transition exactly
when the new count equals OCR (41_generator.md section 2; decision D4). -/
def Obligations.TickCountsAndMatchesAtCompare : Prop :=
  ∀ s : State,
    (s.gen.cnt + 1 ≠ s.gen.ocr →
      exec .gTick s = .next { s with gen := { s.gen with cnt := s.gen.cnt + 1 }, resp := some 0 }) ∧
    (s.gen.cnt + 1 = s.gen.ocr →
      exec .gTick s = exec .gCmatch { s with gen := { s.gen with cnt := s.gen.cnt + 1 } })

/-- The time to the next match: with OCR `d` ahead of CNT the next match is `d` counts later, 256 for
d = 0, and until then only CNT moves (41_generator.md section 3 "Time to the next match", an inference
the spec marks as its own). -/
def Obligations.NextMatchComesAfterItsDelay : Prop :=
  ∀ (s : State) (d : Count8), s.gen.ocr = s.gen.cnt + d → ∀ k, k < (if d = 0 then 256 else d.toNat) →
    ∃ u, runTicks k s = some u ∧
      u = { s with gen := { s.gen with cnt := s.gen.cnt + BitVec.ofNat 8 k }, resp := u.resp } ∧
      (MatchDue u.gen ↔ k + 1 = if d = 0 then 256 else d.toNat)

/-- The closed model performs the open model's next match: counting to the match gives the state
G.CMATCH gives with CNT at OCR (41_generator.md section 2 "The two ways to drive the generator";
decision D35). -/
def Obligations.ClosedModelPerformsTheOpenModelsMatch : Prop :=
  ∀ (s t : State) (d : Count8), s.gen.ocr = s.gen.cnt + d →
    exec .gCmatch { s with gen := { s.gen with cnt := s.gen.ocr } } = .next t →
    runTicks (if d = 0 then 256 else d.toNat) s = some t

/-- The timeline of one slot: from the count that runs its HeaderStep, the pin is active for the header's
ticks, then idle for the ticks of the loaded encoding, and the count after that runs the next slot's
HeaderStep (41_generator.md section 3 "Timeline of one slot", an inference the spec marks as its own). -/
def Obligations.SlotLastsHeaderAndTail : Prop :=
  ∀ s s1 : State, s.gen.cie = true → s.gen.phase = .header → s.gen.tog = true → MatchDue s.gen →
    exec .gTick s = .next s1 →
    (∀ k, 1 ≤ k → k ≤ headerLen s.cfg → ∃ u, runTicks k s = some u ∧ u.gen.pin = !s.gen.pin) ∧
    (∀ k, headerLen s.cfg < k → k ≤ headerLen s.cfg + segTicks s1.gen.work →
      ∃ u, runTicks k s = some u ∧ u.gen.pin = s.gen.pin) ∧
    ∃ u, runTicks (headerLen s.cfg + segTicks s1.gen.work) s = some u ∧ MatchDue u.gen ∧
      u = { s1 with gen := { s1.gen with
        cnt := u.gen.cnt
        ocr := u.gen.ocr
        work := u.gen.work
        phase := .header
        tog := true
        pin := s.gen.pin } }

/-- The frame: from the count that commits to the count that commits next, exactly the sum of the header
and tail ticks of the committed slots 0 to NCH passes, and the committed set stays as it is
(41_generator.md section 3 "Frame-sum property", an inference the spec marks as its own). The ranges of
NCH, PERIOD_US and AIDX are part of the invariant StepKeepsTheInvariant states. -/
def Obligations.FrameLastsTheSumOfItsSlots : Prop :=
  ∀ s s1 : State, RangesOk s.gen → s.gen.cie = true → AtBoundary s.gen → s.gen.tog = true →
    MatchDue s.gen → exec .gTick s = .next s1 →
    (∃ u, runTicks (slotsTicks s.cfg s1.gen.cur (s.gen.nch.toNat + 1)) s = some u ∧
      AtBoundary u.gen ∧ MatchDue u.gen ∧ u.gen.tog = true ∧ u.gen.cie = true ∧ u.gen.pin = s.gen.pin) ∧
    ∀ k u, 1 ≤ k → k ≤ slotsTicks s.cfg s1.gen.cur (s.gen.nch.toNat + 1) → runTicks k s = some u →
      u.gen.cur = s1.gen.cur

/-- A pending set whose channels and filler are encodings of 16 ticks or more makes a frame of exactly
PERIOD_TICKS, when the header lasts HDR_TICKS (41_generator.md section 3 "Frame-sum property", an
inference the spec marks as its own). -/
def Obligations.SoundPendingSetLastsThePeriod : Prop :=
  ∀ (c : Config) (g : Gen) (w : Nat → Nat) (f : Nat), HeaderSound c →
    (∀ k, 1 ≤ k → k ≤ g.nch.toNat →
      g.next[k]? = some (some (encodeTicks (w k))) ∧ 16 ≤ w k ∧ w k ≤ 32752) →
    fillerTicks c g = .ok (f : Int) → 16 ≤ f → f ≤ 32752 → g.next[0]? = some (some (encodeTicks f)) →
    slotsTicks c g.next (g.nch.toNat + 1) = periodTicks c g.periodUs

/-- Every step keeps the pending set consistent: whenever its filler is in the encoder's domain, slot 0
holds exactly it (41_generator.md section 3 "Frame-sum property", 20_memory.md section 5). -/
def Obligations.PendingSetStaysConsistent : Prop :=
  ∀ s t : State, PendingConsistent s → step s = .next t → PendingConsistent t

/-- Pending values have no effect on the output before the next frame boundary: with any other pending
side, the same timer counts up to it give the same state but for that side (20_memory.md section 5). -/
def Obligations.PendingWritesAreInvisibleUntilCommit : Prop :=
  ∀ (nxt : Table) (k : Nat) (s t : State), runTicks k s = some t →
    (∀ j u, j < k → runTicks j s = some u →
      ¬ (MatchDue u.gen ∧ u.gen.cie = true ∧ u.gen.phase = .header ∧ u.gen.nch < u.gen.aidx + 1)) →
    runTicks k { s with gen := { s.gen with next := nxt } } =
      some { t with gen := { t.gen with next := nxt } }

/-! ### Who writes what -/

/-- The pending side is written by the host context only and the current side by the interrupt
context only, at a frame boundary; flag bits are set by the interrupt context only and cleared by the
host context only (10_state.md section 6, 43_registry.md). -/
def Obligations.OneContextWritesEachSide : Prop :=
  ∀ (i : Instr) (s t : State), exec i s = .next t →
    (t.gen.next ≠ s.gen.next → i.context = .host ∧ (i.op = .gInit ∨ i.op = .gSetw)) ∧
    (t.gen.cur ≠ s.gen.cur →
      i.context = .interrupt ∧ s.gen.phase = .header ∧ t.gen.aidx = 0 ∧ t.gen.sync = 0xFF) ∧
    (∀ b, s.gen.sync.getLsbD b = false → t.gen.sync.getLsbD b = true → i.context = .interrupt) ∧
    (∀ b, s.gen.sync.getLsbD b = true → t.gen.sync.getLsbD b = false → i.context = .host) ∧
    ∀ (k : Nat) (x y : Dec), s.dec[k]? = some x → t.dec[k]? = some y →
      (∀ b, x.sync.getLsbD b = false → y.sync.getLsbD b = true → i.context = .interrupt) ∧
      (∀ b, x.sync.getLsbD b = true → y.sync.getLsbD b = false → i.context = .host)

/-- The generator's elements are written only by the events 10_state.md section 6 lists for them (an
inference the spec marks as its own). -/
def Obligations.GeneratorElementsHaveTheirWriters : Prop :=
  ∀ (i : Instr) (s t : State), exec i s = .next t →
    (i.op ≠ .gInit → t.gen.pol = s.gen.pol ∧ t.gen.nch = s.gen.nch ∧ t.gen.periodUs = s.gen.periodUs ∧
      t.gen.en = s.gen.en ∧ t.gen.cie = s.gen.cie) ∧
    (i.op ≠ .gInit → i.op ≠ .gSetw → t.gen.next = s.gen.next) ∧
    (i.agent ≠ .timer → t.gen.cur = s.gen.cur ∧ t.gen.work = s.gen.work ∧ t.gen.ocr = s.gen.ocr) ∧
    (i.op ≠ .gTick → t.gen.cnt = s.gen.cnt) ∧
    (i.agent ≠ .timer → i.op ≠ .gInit → t.gen.aidx = s.gen.aidx ∧ t.gen.phase = s.gen.phase ∧
      t.gen.tog = s.gen.tog ∧ t.gen.pin = s.gen.pin) ∧
    (i.agent ≠ .timer → i.op ≠ .gInit → i.op ≠ .gPoll → t.gen.sync = s.gen.sync)

/-- A decoder instance's elements are written only by the events 10_state.md section 6 lists for them (an
inference the spec marks as its own). -/
def Obligations.DecoderElementsHaveTheirWriters : Prop :=
  ∀ (i : Instr) (s t : State), exec i s = .next t →
    ∀ (k : Nat) (x y : Dec), s.dec[k]? = some x → t.dec[k]? = some y →
      (i.op ≠ .dAttach → y.line = x.line ∧ y.bound = x.bound) ∧
      (i.op ≠ .dAttach → i.op ≠ .dEdge →
        y.buf = x.buf ∧ y.ccnt = x.ccnt ∧ y.psyncTs = x.psyncTs ∧ y.periodEst = x.periodEst) ∧
      (i.op ≠ .dAttach → i.op ≠ .dSuspend → i.op ≠ .dResume → y.att = x.att) ∧
      (i.op ≠ .dAttach → i.op ≠ .dEdge → i.op ≠ .dSuspend → y.widx = x.widx) ∧
      (i.op ≠ .dAttach → i.op ≠ .dEdge → i.op ≠ .dResume → y.prevTs = x.prevTs) ∧
      (i.op ≠ .dAttach → i.op ≠ .dEdge → i.op ≠ .dIssync → y.sync = x.sync)

/-- No state is shared: an event of the generator leaves every decoder alone, an event of a decoder
leaves the generator alone, and an event that names an instance leaves every other instance alone
(10_state.md section 1, 42_decoder.md section 2; decision D21). -/
def Obligations.NoStateIsShared : Prop :=
  ∀ (i : Instr) (s t : State), exec i s = .next t →
    (i.part ≠ .decoder → t.dec = s.dec) ∧ (i.part ≠ .generator → t.gen = s.gen) ∧
    ∀ d, i.inst? = some d → ∀ k, k ≠ d.toNat → t.dec[k]? = s.dec[k]?

/-- A generator event and a decoder event commute: in either order both complete, each responds the same,
and they leave the same generator, decoders and draws (20_memory.md section 4, 60_exceptions.md section
2; decisions D3, D29). -/
def Obligations.GeneratorAndDecoderEventsCommute : Prop :=
  ∀ (i j : Instr) (s t1 t2 : State), i.part = .generator → j.part = .decoder →
    exec i s = .next t1 → exec j t1 = .next t2 →
    ∃ u1 u2, exec j s = .next u1 ∧ exec i u1 = .next u2 ∧ u1.resp = t2.resp ∧ u2.resp = t1.resp ∧
      { u2 with resp := t2.resp } = t2

/-! ### The decoder -/

/-- D.ATTACH resets the instance, whether or not a capture slot was free, and answers whether it was
(42_decoder.md section 1; decisions D22, D25). -/
def Obligations.AttachResetsTheInstance : Prop :=
  ∀ (d : BitVec 3) (slotOk : Bool) (line : BitVec 8) (s : State), d.toNat < s.dec.length →
    exec (.dAttach d slotOk line) s = .next { s with
      dec := s.dec.set d.toNat
        { att := slotOk, bound := slotOk, line := line, buf := Vector.replicate 9 0, widx := 255,
          ccnt := 255, prevTs := 0, psyncTs := 0, periodEst := 0, sync := 0 }
      resp := some (if slotOk then 1 else 0) }

/-- D.EDGE classifies the interval modulo 65536 in every instance that is attached to the line: 3000 µs
or more is a synchro gap, a shorter one is stored while the cursor is below 9 and dropped otherwise;
other instances are untouched (42_decoder.md section 1; decisions D23, D26). -/
def Obligations.EdgeClassifiesTheInterval : Prop :=
  ∀ (line : BitVec 8) (ts : Micros) (s : State),
    ∃ t, exec (.dEdge line ts) s = .next t ∧ t = { s with dec := t.dec, resp := some 0 } ∧
      t.dec.length = s.dec.length ∧
      ∀ (d : Nat) (x : Dec) (gap : Nat), s.dec[d]? = some x →
        gap = (ts.toNat + 65536 - x.prevTs.toNat) % 65536 →
        (¬ (x.att = true ∧ x.line = line) → t.dec[d]? = some x) ∧
        (x.att = true → x.line = line → 3000 ≤ gap →
          t.dec[d]? = some { x with
            prevTs := ts, ccnt := x.widx, widx := 0, sync := 0xFF, psyncTs := ts
            periodEst := BitVec.ofNat 16 ((ts.toNat + 65536 - x.psyncTs.toNat) % 65536) }) ∧
        (x.att = true → x.line = line → gap < 3000 → x.widx.toNat < 9 →
          ∃ y, t.dec[d]? = some y ∧
            y = { x with prevTs := ts, widx := BitVec.ofNat 8 (x.widx.toNat + 1), buf := y.buf } ∧
            ∀ k : Nat, y.buf[k]? =
              if k = x.widx.toNat then some (BitVec.ofNat 16 gap) else x.buf[k]?) ∧
        (x.att = true → x.line = line → gap < 3000 → 9 ≤ x.widx.toNat →
          t.dec[d]? = some { x with prevTs := ts })

/-- Rule R132: D.NB answers the last committed count, or 0 if it exceeds the capacity, and changes
nothing. -/
def Obligations.NbReportsTheCommittedCount : Prop :=
  ∀ (d : BitVec 3) (x : Dec) (s : State), s.dec[d.toNat]? = some x →
    exec (.dNb d) s = .next { s with
      resp := some ((if 9 < x.ccnt.toNat then 0 else x.ccnt.toNat : Nat) : Int) }

/-- D.WIDTH of channel 1 to 9 answers the buffer entry one below it and changes nothing (42_decoder.md
section 1; decision D24). -/
def Obligations.WidthReadsTheChannelsEntry : Prop :=
  ∀ (d : BitVec 3) (ch : BitVec 4) (x : Dec) (v : Micros) (s : State), s.dec[d.toNat]? = some x →
    1 ≤ ch.toNat → ch.toNat ≤ 9 → x.buf[ch.toNat - 1]? = some v →
    exec (.dWidth d ch) s = .next { s with resp := some (v.toNat : Int) }

/-- D.PERIOD answers the frame-period estimate and changes nothing (42_decoder.md section 1; decision
D23). -/
def Obligations.PeriodReadsTheEstimate : Prop :=
  ∀ (d : BitVec 3) (x : Dec) (s : State), s.dec[d.toNat]? = some x →
    exec (.dPeriod d) s = .next { s with resp := some (x.periodEst.toNat : Int) }

/-- Rule R45: D.NB, D.WIDTH and D.PERIOD change nothing and give the same value again while no D.EDGE or
D.ATTACH intervenes; of the host's reads only G.POLL and D.ISSYNC have a side effect, and it is to clear
the flag bits they return. -/
def Obligations.ReadsHaveNoSideEffect : Prop :=
  (∀ (i : Instr) (l : List Instr) (s t u : State), i.op = .dNb ∨ i.op = .dWidth ∨ i.op = .dPeriod →
    exec i s = .next t → (∀ j ∈ l, j.op ≠ .dEdge ∧ j.op ≠ .dAttach) → runEvents l t = some u →
    t = { s with resp := t.resp } ∧ ∃ v, exec i u = .next v ∧ v.resp = t.resp) ∧
  (∀ (m : FlagSet) (s t : State), exec (.gPoll m) s = .next t →
    t = { s with gen := { s.gen with sync := t.gen.sync }, resp := t.resp } ∧
    t.resp = some ((s.gen.sync &&& m).toNat : Int) ∧ t.gen.sync = s.gen.sync &&& ~~~(s.gen.sync &&& m)) ∧
  ∀ (d : BitVec 3) (m : FlagSet) (x : Dec) (s t : State), s.dec[d.toNat]? = some x →
    exec (.dIssync d m) s = .next t →
    t = { s with dec := s.dec.set d.toNat { x with sync := x.sync &&& ~~~(x.sync &&& m) }, resp := t.resp } ∧
    t.resp = some ((x.sync &&& m).toNat : Int)

/-- D.SUSPEND detaches the instance and sets its write cursor to the sentinel, 255 by decision D22, and
changes nothing else (42_decoder.md section 1; decision D27). -/
def Obligations.SuspendDetachesAndInvalidatesTheCursor : Prop :=
  ∀ (d : BitVec 3) (x : Dec) (s : State), s.dec[d.toNat]? = some x →
    exec (.dSuspend d) s = .next { s with
      dec := s.dec.set d.toNat { x with att := false, widx := 255 }, resp := some 0 }

/-- D.RESUME primes the previous timestamp with the current time and reattaches an instance that was once
attached, and changes nothing else (42_decoder.md section 1; decisions D27, D34). -/
def Obligations.ResumePrimesAndReattaches : Prop :=
  ∀ (d : BitVec 3) (now : Micros) (x : Dec) (s : State), s.dec[d.toNat]? = some x →
    exec (.dResume d now) s = .next { s with
      dec := s.dec.set d.toNat { x with prevTs := now, att := x.bound }, resp := some 0 }

/-- A stale frame is never reported as committed: with the cursor at the sentinel, short intervals are
dropped, the first synchro edge commits the sentinel, and D.NB answers 0 (70_reset_and_hazards.md section
3, an inference the spec marks as its own; the sentinel is decision D22). -/
def Obligations.StaleFrameIsNeverCommitted : Prop :=
  ∀ (d : BitVec 3) (line : BitVec 8) (gaps : List Micros) (g : Micros) (x : Dec) (s : State),
    s.dec[d.toNat]? = some x → x.att = true → x.line = line → x.widx = 255 →
    (∀ v ∈ gaps, v.toNat < 3000) → 3000 ≤ g.toNat →
    ∃ (t u : State) (y : Dec),
      runEvents ((stampsFrom x.prevTs (gaps ++ [g])).map (Instr.dEdge line)) s = some t ∧
      t.dec[d.toNat]? = some y ∧ y.ccnt = 255 ∧ y.widx = 0 ∧ y.buf = x.buf ∧
      exec (.dNb d) t = .next u ∧ u.resp = some 0

/-- Frame reconstruction: after a synchro edge, intervals below 3000 µs and a closing synchro gap, the
committed count is their number up to 9, the buffer holds them in order, and the period estimate is the
sum of all of them and the gap (42_decoder.md section 2, an inference the spec marks as its own). -/
def Obligations.FrameIsReconstructed : Prop :=
  ∀ (d : BitVec 3) (line : BitVec 8) (t0 : Micros) (gaps : List Micros) (g : Micros) (x : Dec) (s : State),
    s.dec[d.toNat]? = some x → x.att = true → x.line = line → 3000 ≤ (t0 - x.prevTs).toNat →
    (∀ v ∈ gaps, v.toNat < 3000) → 3000 ≤ g.toNat →
    ∃ (t u : State) (y : Dec),
      runEvents ((t0 :: stampsFrom t0 (gaps ++ [g])).map (Instr.dEdge line)) s = some t ∧
      t.dec[d.toNat]? = some y ∧ y.ccnt.toNat = min gaps.length 9 ∧ y.widx = 0 ∧ y.sync = 0xFF ∧
      y.periodEst = sumGaps gaps + g ∧
      (∀ k, k < min gaps.length 9 → y.buf[k]? = gaps[k]?) ∧
      exec (.dNb d) t = .next u ∧ u.resp = some ((min gaps.length 9 : Nat) : Int)

/-! ### Conditions -/

/-- The conditions are silent: the event completes, no event raises two, and each leaves only the effect
60_exceptions.md section 1 and the event's own rule give it. E1 only disables the engine; E2 changes
nothing; E3 drops the interval in every instance that overflows and remembers the edge; E4 stores some
value as the filler, and G.SETW or G.INIT stores all else as it would without it; E5 resets the instance, detached
(41_generator.md section 1, 42_decoder.md section 1; decisions D11 to D15, D18, D22, D25, D31, D41, D42). Which branch
raises what is the model's reading (log 7), and the count `draws` of free values is the model's own
field, a DESIGN CHOICE (log 5). -/
def Obligations.ConditionsAreSilent : Prop :=
  ∀ (i : Instr) (s : State),
    (conditionsOf i s).length ≤ 1 ∧
    (.resourceExhaustion ∈ conditionsOf i s → exec i s =
      .next { s with gen := { s.gen with en := false, cie := false, tog := false }, resp := some 0 }) ∧
    (.invalidChannel ∈ conditionsOf i s → exec i s = .next { s with resp := some 0 }) ∧
    (.capacityOverflow ∈ conditionsOf i s →
      ∃ (line : BitVec 8) (ts : Micros) (t : State), i = .dEdge line ts ∧ exec i s = .next t ∧
        t = { s with dec := t.dec, resp := some 0 } ∧
        (∃ (k : Nat) (x : Dec), s.dec[k]? = some x ∧ x.overflows line ts = true) ∧
        ∀ (k : Nat) (x : Dec), s.dec[k]? = some x →
          (x.overflows line ts = true ↔ x.att = true ∧ x.line = line ∧
            (ts.toNat + 65536 - x.prevTs.toNat) % 65536 < 3000 ∧ 9 ≤ x.widx.toNat) ∧
          (x.overflows line ts = true → t.dec[k]? = some { x with prevTs := ts })) ∧
    (.timingViolation ∈ conditionsOf i s →
      ∃ (t : State) (f : Int), exec i s = .next t ∧ fillerTicks s.cfg t.gen = .ok f ∧
        (f < 0 ∨ 32752 < f) ∧ s.draws < t.draws ∧
        (∃ v : BitVec 16, t.gen.next[0]? = some (some (unpack v))) ∧
        ((∃ ch width, i = .gSetw ch width ∧
            t = { s with gen := { s.gen with next := t.gen.next }, resp := some 0, draws := t.draws } ∧
            (∀ w, w = (if width.toNat < s.cfg.headerUs then 0
                else us2ticks s.cfg (width.toNat - s.cfg.headerUs)) → w ≤ 32752 →
              t.gen.next[ch.toNat]? = some (some (encodeTicks w))) ∧
            ∀ k, k ≠ 0 → k ≠ ch.toNat → t.gen.next[k]? = s.gen.next[k]?) ∨
          ∃ pol nch per, i = .gInit true pol nch per ∧
            t = { s with gen := t.gen, resp := some 1, draws := t.draws } ∧
            t.gen = { s.gen with
              pol := pol
              nch := BitVec.ofNat 4 (min nch.toNat 8)
              periodUs := BitVec.ofNat 16 (min (max per.toNat 10000) 40000)
              next := t.gen.next
              aidx := BitVec.ofNat 4 (min nch.toNat 8)
              phase := .header
              sync := 0
              pin := decide (pol = .negative)
              tog := true
              cie := true
              en := true } ∧
            (∀ w, w = (if 1500 < s.cfg.headerUs then 0 else us2ticks s.cfg (1500 - s.cfg.headerUs)) →
              w ≤ 32752 →
              ∀ k, 1 ≤ k → k ≤ min nch.toNat 8 → t.gen.next[k]? = some (some (encodeTicks w))) ∧
            ∀ k, min nch.toNat 8 < k → t.gen.next[k]? = s.gen.next[k]?)) ∧
    (.captureUnavailable ∈ conditionsOf i s → ∃ (d : BitVec 3) (line : BitVec 8),
      i = .dAttach d false line ∧ exec i s = .next { s with
        dec := s.dec.set d.toNat
          { att := false, bound := false, line := line, buf := Vector.replicate 9 0, widx := 255,
            ccnt := 255, prevTs := 0, psyncTs := 0, periodEst := 0, sync := 0 }
        resp := some 0 })

/-! ### Reset, invariant, completion -/

/-- The power-on reset state of any configuration (10_state.md section 8; the values are the spec's own,
decision D30). -/
def Obligations.ResetStateHoldsItsValues : Prop :=
  (∀ c : Config, (State.resetOf c).cfg = c ∧ (State.resetOf c).dec.length = c.ndec ∧
    (∀ x ∈ (State.resetOf c).dec, x =
      { att := false, bound := false, line := 0, buf := Vector.replicate 9 0, widx := 255, ccnt := 255,
        prevTs := 0, psyncTs := 0, periodEst := 0, sync := 0 }) ∧
    (State.resetOf c).gen =
      { pol := .positive, nch := 1, periodUs := 20000, en := false,
        next := Vector.replicate 9 none, cur := Vector.replicate 9 none, aidx := 0, phase := .header,
        work := { ovf := 0, half := false, rem := 0 }, sync := 0, cnt := 0, ocr := 0, tog := false,
        cie := false, pin := false }) ∧
  State.reset = State.resetOf Config.ref

/-- The invariant holds at reset, for every configuration in the ranges of 00_scope.md section 4
(10_state.md section 7; the reset values are decision D30). -/
def Obligations.ResetMeetsTheInvariant : Prop :=
  (∀ c : Config, c.wf = true → Inv (State.resetOf c)) ∧ Inv State.reset

/-- Every step keeps the invariant: the ranges of NCH, PERIOD_US and AIDX, the pin toggling in the Header
phase, the cursors 0 to 9 or the sentinel, and every slot a rule can read holding a value (10_state.md
section 7 and section 8, inferences the spec marks as its own). -/
def Obligations.StepKeepsTheInvariant : Prop :=
  ∀ s t : State, Inv s → step s = .next t → Inv t

/-- No rule reads an unspecified element: under the invariant no step faults (10_state.md section 8, an
inference the spec marks as its own). -/
def Obligations.NoUnspecifiedEntryIsRead : Prop :=
  ∀ (s : State) (f : Fault), Inv s → step s ≠ .fault f

/-- Every event completes: under the invariant, every event that names a present instance gives a next
state, but for G.INIT with a channel count of 0 (60_exceptions.md section 1 "No unwinding, no trap";
decision D17). -/
def Obligations.EveryAdmittedEventCompletes : Prop :=
  ∀ (i : Instr) (s : State), Inv s → i.wf s.cfg.ndec = true →
    (∀ a pol per, i ≠ .gInit a pol 0 per) → ∃ t, exec i s = .next t ∧ Inv t

/-- The output starts 256 counts after reset when G.INIT comes first: until then the pin idles and no
flag is raised, then the first commit raises every flag and a header begins (70_reset_and_hazards.md
section 1, an inference the spec marks as its own; decisions D13, D14, D30). -/
def Obligations.FirstCommitIs256CountsAfterReset : Prop :=
  ∀ (c : Config) (pol : Polarity) (nch : BitVec 4) (per : Micros) (t : State),
    exec (.gInit true pol nch per) (State.resetOf c) = .next t →
    (∀ k, k < 256 → ∃ u, runTicks k t = some u ∧ u.gen.sync = 0 ∧
      u.gen.pin = decide (pol = .negative)) ∧
    ∃ v, runTicks 256 t = some v ∧ v.gen.sync = 0xFF ∧ v.gen.aidx = 0 ∧ v.gen.phase = .tail ∧
      v.gen.pin = decide (pol = .positive) ∧
      ∀ k, k ≤ t.gen.nch.toNat → v.gen.cur[k]? = t.gen.next[k]?
end

