-- ==== Sys2Proof/Laws/State.lean ====
section
/-! SUPPORT. One lemma per field of State per named update, and the update laws. -/

namespace Sys2Proof.Machine

variable (s : State)

@[simp] theorem State.respond_cfg (r : Int) : (s.respond r).cfg = s.cfg := rfl
@[simp] theorem State.respond_gen (r : Int) : (s.respond r).gen = s.gen := rfl
@[simp] theorem State.respond_dec (r : Int) : (s.respond r).dec = s.dec := rfl
@[simp] theorem State.respond_events (r : Int) : (s.respond r).events = s.events := rfl
@[simp] theorem State.respond_resp (r : Int) : (s.respond r).resp = some r := rfl
@[simp] theorem State.respond_draws (r : Int) : (s.respond r).draws = s.draws := rfl

@[simp] theorem State.setGen_cfg (g : Gen) : (s.setGen g).cfg = s.cfg := rfl
@[simp] theorem State.setGen_gen (g : Gen) : (s.setGen g).gen = g := rfl
@[simp] theorem State.setGen_dec (g : Gen) : (s.setGen g).dec = s.dec := rfl
@[simp] theorem State.setGen_events (g : Gen) : (s.setGen g).events = s.events := rfl
@[simp] theorem State.setGen_resp (g : Gen) : (s.setGen g).resp = s.resp := rfl
@[simp] theorem State.setGen_draws (g : Gen) : (s.setGen g).draws = s.draws := rfl

@[simp] theorem State.setDraws_cfg (n : Nat) : (s.setDraws n).cfg = s.cfg := rfl
@[simp] theorem State.setDraws_gen (n : Nat) : (s.setDraws n).gen = s.gen := rfl
@[simp] theorem State.setDraws_dec (n : Nat) : (s.setDraws n).dec = s.dec := rfl
@[simp] theorem State.setDraws_events (n : Nat) : (s.setDraws n).events = s.events := rfl
@[simp] theorem State.setDraws_resp (n : Nat) : (s.setDraws n).resp = s.resp := rfl
@[simp] theorem State.setDraws_draws (n : Nat) : (s.setDraws n).draws = n := rfl

@[simp] theorem State.setDec_cfg (d : Nat) (x : Dec) : (s.setDec d x).cfg = s.cfg := rfl
@[simp] theorem State.setDec_gen (d : Nat) (x : Dec) : (s.setDec d x).gen = s.gen := rfl
@[simp] theorem State.setDec_dec (d : Nat) (x : Dec) : (s.setDec d x).dec = s.dec.set d x := rfl
@[simp] theorem State.setDec_events (d : Nat) (x : Dec) : (s.setDec d x).events = s.events := rfl
@[simp] theorem State.setDec_resp (d : Nat) (x : Dec) : (s.setDec d x).resp = s.resp := rfl
@[simp] theorem State.setDec_draws (d : Nat) (x : Dec) : (s.setDec d x).draws = s.draws := rfl

@[simp] theorem State.mapDec_cfg (f : Dec → Dec) : (s.mapDec f).cfg = s.cfg := rfl
@[simp] theorem State.mapDec_gen (f : Dec → Dec) : (s.mapDec f).gen = s.gen := rfl
@[simp] theorem State.mapDec_dec (f : Dec → Dec) : (s.mapDec f).dec = s.dec.map f := rfl
@[simp] theorem State.mapDec_events (f : Dec → Dec) : (s.mapDec f).events = s.events := rfl
@[simp] theorem State.mapDec_resp (f : Dec → Dec) : (s.mapDec f).resp = s.resp := rfl
@[simp] theorem State.mapDec_draws (f : Dec → Dec) : (s.mapDec f).draws = s.draws := rfl

@[simp] theorem issueFirst_cfg (w : EventWord) : (issueFirst s w).cfg = s.cfg := rfl
@[simp] theorem issueFirst_gen (w : EventWord) : (issueFirst s w).gen = s.gen := rfl
@[simp] theorem issueFirst_dec (w : EventWord) : (issueFirst s w).dec = s.dec := rfl
@[simp] theorem issueFirst_events (w : EventWord) : (issueFirst s w).events = w :: s.events := rfl
@[simp] theorem issueFirst_resp (w : EventWord) : (issueFirst s w).resp = s.resp := rfl
@[simp] theorem issueFirst_draws (w : EventWord) : (issueFirst s w).draws = s.draws := rfl

/-- Two states with equal fields are equal. -/
theorem State.eq_of_fields {s t : State} (hc : s.cfg = t.cfg) (hg : s.gen = t.gen) (hd : s.dec = t.dec)
    (he : s.events = t.events) (hr : s.resp = t.resp) (hn : s.draws = t.draws) : s = t := by
  cases s; cases t; simp_all

/-- Replacing an instance by itself changes nothing. -/
theorem State.setDec_self {s : State} {d : Nat} {x : Dec} (h : s.dec[d]? = some x) : s.setDec d x = s := by
  have hl : d < s.dec.length := by
    by_contra hn
    rw [List.getElem?_eq_none (by omega)] at h
    cases h
  have hx : s.dec[d] = x := by simpa [List.getElem?_eq_getElem hl] using h
  subst hx
  exact State.eq_of_fields rfl rfl (by simp) rfl rfl rfl

/-- What the reset state of a configuration holds. -/
@[simp] theorem State.resetOf_cfg (c : Config) : (State.resetOf c).cfg = c := rfl
@[simp] theorem State.resetOf_gen (c : Config) : (State.resetOf c).gen = Gen.reset := rfl
@[simp] theorem State.resetOf_dec (c : Config) : (State.resetOf c).dec = List.replicate c.ndec Dec.reset := rfl
@[simp] theorem State.resetOf_events (c : Config) : (State.resetOf c).events = [] := rfl
@[simp] theorem State.resetOf_resp (c : Config) : (State.resetOf c).resp = none := rfl
@[simp] theorem State.resetOf_draws (c : Config) : (State.resetOf c).draws = 0 := rfl

end Sys2Proof.Machine
end

