-- ==== Sys2Proof/Laws/Ops.lean ====
section
/-! SUPPORT. For each shared operation, what it can do, said once. -/

namespace Sys2Proof.Machine

/-! ### The channel table -/

/-- A read succeeds exactly on a slot that holds a value. -/
theorem readSlot_ok_iff {sp : Space} {t : Table} {i : Nat} {e : EncodedWidth} :
    readSlot sp t i = .ok e ↔ t[i]? = some (some e) := by
  unfold readSlot
  split <;> simp_all

/-- A slot is specified exactly when it holds some value. -/
theorem specified_iff {t : Table} {i : Nat} : specified t i = true ↔ ∃ e, t[i]? = some (some e) := by
  unfold specified
  split <;> simp_all

/-- A write changes its own slot and no other. -/
theorem writeSlot_get (t : Table) (i j : Nat) (e : EncodedWidth) :
    (writeSlot t i e)[j]? = if j = i ∧ i < tableSlots then some (some e) else t[j]? := by
  unfold writeSlot
  rw [Vector.getElem?_setIfInBounds]
  by_cases h : i = j
  · subst h
    by_cases hi : i < tableSlots
    · simp [hi]
    · simp [hi]
  · rw [if_neg h, if_neg (fun h' => h h'.1.symm)]

/-- A successful copy of the first `k` slots took each of them from the pending side, each held a value,
and the other slots are untouched. -/
theorem copySlots_ok {nxt cur tab : Table} {k : Nat} (h : copySlots nxt cur k = .ok tab) :
    (∀ i, i < k → tab[i]? = nxt[i]? ∧ ∃ e, nxt[i]? = some (some e)) ∧ ∀ i, k ≤ i → tab[i]? = cur[i]? := by
  induction k generalizing tab with
  | zero => simp only [copySlots, Except.ok.injEq] at h; subst h; simp
  | succ k ih =>
    simp only [copySlots] at h
    split at h
    · cases h
    · rename_i tab₀ h₀
      split at h
      · cases h
      · rename_i e he
        cases h
        obtain ⟨lo, hi⟩ := ih h₀
        have hk := readSlot_ok_iff.mp he
        have hlt : k < tableSlots := by
          by_contra hn
          rw [Vector.getElem?_eq_none (by omega)] at hk
          cases hk
        refine ⟨fun i hik => ?_, fun i hik => ?_⟩
        · by_cases hi' : i = k
          · subst hi'
            exact ⟨by rw [writeSlot_get, if_pos ⟨rfl, hlt⟩, hk], e, hk⟩
          · rw [writeSlot_get, if_neg (fun h' => hi' h'.1)]
            exact lo i (by omega)
        · rw [writeSlot_get, if_neg (fun h' => by omega)]
          exact hi i (by omega)

/-- The copy succeeds when every slot it copies holds a value. -/
theorem copySlots_exists {nxt cur : Table} {k : Nat} (h : ∀ i, i < k → ∃ e, nxt[i]? = some (some e)) :
    ∃ c, copySlots nxt cur k = .ok c := by
  induction k with
  | zero => exact ⟨cur, rfl⟩
  | succ k ih =>
    obtain ⟨c, hc⟩ := ih fun i hi => h i (by omega)
    obtain ⟨e, he⟩ := h k (by omega)
    exact ⟨writeSlot c k e, by simp only [copySlots, hc, readSlot_ok_iff.mpr he]⟩

/-! ### The filler -/

/-- The sum of the pending channels exists when every channel slot holds a value. -/
theorem sumDecoded_exists {nxt : Table} {n : Nat} (h : ∀ i, 1 ≤ i → i ≤ n → ∃ e, nxt[i]? = some (some e)) :
    ∃ a, sumDecoded nxt n = .ok a := by
  induction n with
  | zero => exact ⟨0, rfl⟩
  | succ n ih =>
    obtain ⟨a, ha⟩ := ih fun i h1 hi => h i h1 (by omega)
    obtain ⟨e, he⟩ := h (n + 1) (by omega) (by omega)
    exact ⟨a + decodedTicks e, by simp only [sumDecoded, ha, readSlot_ok_iff.mpr he]⟩

/-- The sum reads only the channel slots. -/
theorem sumDecoded_congr {t u : Table} {n : Nat} (h : ∀ i, 1 ≤ i → i ≤ n → t[i]? = u[i]?) :
    sumDecoded t n = sumDecoded u n := by
  induction n with
  | zero => rfl
  | succ n ih =>
    have hr : readSlot .next t (n + 1) = readSlot .next u (n + 1) := by
      unfold readSlot
      rw [h (n + 1) (by omega) (by omega)]
    simp only [sumDecoded, hr, ih fun i h1 hi => h i h1 (by omega)]

/-- The filler does not depend on what slot 0 holds. -/
theorem fillerTicks_slot0 (c : Config) (g : Gen) (e : EncodedWidth) :
    fillerTicks c { g with next := writeSlot g.next 0 e } = fillerTicks c g := by
  have h : sumDecoded (writeSlot g.next 0 e) g.nch.toNat = sumDecoded g.next g.nch.toNat :=
    sumDecoded_congr fun i h1 _ => by rw [writeSlot_get, if_neg (fun h' => by omega)]
  simp only [fillerTicks, h]

/-- What `storeFiller` can do: it writes slot 0 of the pending side and nothing else; the value is the
encoded filler when it fits, and a free draw otherwise. -/
theorem storeFiller_ok {c : Config} {g g' : Gen} {n n' : Nat} (h : storeFiller c g n = .ok (g', n')) :
    ∃ f e, fillerTicks c g = .ok f ∧ g' = { g with next := writeSlot g.next 0 e } ∧
      ((fillerFits f = true ∧ e = encodeTicks f.toNat ∧ n' = n) ∨
        (fillerFits f = false ∧ e = drawn n ∧ n' = n + 1)) := by
  unfold storeFiller at h
  split at h
  · cases h
  · rename_i e m he
    cases h
    unfold fillerValue raise at he
    split at he
    · cases he
    · rename_i f hf
      split at he
      · rename_i hfit
        cases he
        exact ⟨f, encodeTicks f.toNat, hf, rfl, .inl ⟨hfit, rfl, rfl⟩⟩
      · rename_i hfit
        cases he
        exact ⟨f, drawn n, hf, rfl, .inr ⟨by simpa using hfit, rfl, rfl⟩⟩

/-- `storeFiller` succeeds when every channel slot holds a value. -/
theorem storeFiller_exists {c : Config} {g : Gen} {n : Nat}
    (h : ∀ i, 1 ≤ i → i ≤ g.nch.toNat → ∃ e, g.next[i]? = some (some e)) :
    ∃ r, storeFiller c g n = .ok r := by
  obtain ⟨a, ha⟩ := sumDecoded_exists h
  simp only [storeFiller, fillerValue, fillerTicks, ha, raise]
  split
  · rename_i h'
    split at h' <;> cases h'
  · exact ⟨_, rfl⟩

/-- A sum that exists has read a value in every channel slot. -/
theorem sumDecoded_ok {nxt : Table} {n : Nat} {a : Int} (h : sumDecoded nxt n = .ok a) :
    ∀ i, 1 ≤ i → i ≤ n → ∃ e, nxt[i]? = some (some e) := by
  induction n generalizing a with
  | zero => intro i h1 hi; omega
  | succ n ih =>
    simp only [sumDecoded] at h
    split at h
    · cases h
    · rename_i b hb
      split at h
      · cases h
      · rename_i e he
        intro i h1 hi
        by_cases hn : i = n + 1
        · exact hn ▸ ⟨e, readSlot_ok_iff.mp he⟩
        · exact ih hb i h1 (by omega)

/-! ### G.INIT's table -/

/-- The clamped channel count. -/
theorem clampChannels_toNat (n : BitVec 4) : (clampChannels n).toNat = min n.toNat maxCh := by
  simp only [clampChannels, maxCh, BitVec.toNat_ofNat]
  omega

/-- The clamped period. -/
theorem clampPeriod_toNat (p : Micros) :
    (clampPeriod p).toNat = min (max p.toNat periodMinUs) periodMaxUs := by
  simp only [clampPeriod, periodMinUs, periodMaxUs, BitVec.toNat_ofNat]
  omega

/-- The neutral table holds the neutral entries in slots 1 to m and keeps the other slots. -/
theorem neutralTable_get (c : Config) (t : Table) (n m i : Nat) :
    (neutralTable c t n m)[i]? =
      if 1 ≤ i ∧ i ≤ m ∧ i < tableSlots then some (some (neutralEntry c n i)) else t[i]? := by
  unfold neutralTable
  rcases Nat.lt_or_ge i tableSlots with h | h
  · rw [Vector.getElem?_eq_getElem h, Vector.getElem?_eq_getElem h, Vector.getElem_mapIdx]
    by_cases hm : 1 ≤ i ∧ i ≤ m
    · rw [if_pos hm, if_pos ⟨hm.1, hm.2, h⟩]
    · rw [if_neg hm, if_neg fun h' => hm ⟨h'.1, h'.2.1⟩]
  · rw [if_neg fun h' => Nat.not_lt.mpr h h'.2.2, Vector.getElem?_eq_none h, Vector.getElem?_eq_none h]

/-! ### Instances and outcomes -/

/-- What an operation on one instance can do: it changes that instance and responds. -/
theorem onDec_next {s t : State} {d : BitVec 3} {f : Dec → Dec × Int} (h : onDec s d f = .next t) :
    ∃ x, s.dec[d.toNat]? = some x ∧ t = (s.setDec d.toNat (f x).1).respond (f x).2 := by
  unfold onDec at h
  split at h
  · cases h
  · rename_i x hx
    cases h
    exact ⟨x, hx, rfl⟩

/-- An operation on an instance that exists completes. -/
theorem onDec_some {s : State} {d : BitVec 3} {f : Dec → Dec × Int} {x : Dec}
    (h : s.dec[d.toNat]? = some x) :
    onDec s d f = .next ((s.setDec d.toNat (f x).1).respond (f x).2) := by
  simp only [onDec, h]

/-- An operation on an instance never faults. -/
theorem onDec_no_fault {s : State} {d : BitVec 3} {f : Dec → Dec × Int} {e : Fault} :
    onDec s d f ≠ .fault e := by
  unfold onDec
  split <;> simp

/-- What an operation on the generator can do: it changes the generator and responds. -/
theorem onGen_next {s t : State} {g : Except Fault Gen} {r : Int} (h : onGen s g r = .next t) :
    ∃ g', g = .ok g' ∧ t = (s.setGen g').respond r := by
  unfold onGen at h
  split at h
  · cases h
  · rename_i g₁
    cases h
    exact ⟨g₁, rfl, rfl⟩

/-! ### The compare match -/

/-- What the load at the end of HeaderStep can do. -/
theorem loadWork_ok {g g' : Gen} (h : loadWork g = .ok g') :
    ∃ e, g.cur[g.aidx.toNat]? = some (some e) ∧ g' = { g with work := e, phase := .tail } := by
  unfold loadWork at h
  split at h
  · cases h
  · rename_i e he
    cases h
    exact ⟨e, readSlot_ok_iff.mp he, rfl⟩

/-- What HeaderStep can do: at a frame boundary it commits, raises the flags and loads slot 0, otherwise
it loads the next slot. -/
theorem headerStep_ok {c : Config} {g g' : Gen} (h : headerStep c g = .ok g') :
    (g.nch < g.aidx + 1 ∧ ∃ cur' e, copySlots g.next g.cur (g.nch.toNat + 1) = .ok cur' ∧
        cur'[0]? = some (some e) ∧
        g' = { g with ocr := g.ocr + hdrStep c, aidx := 0, cur := cur', sync := 0xFF, work := e, phase := .tail }) ∨
      (¬ g.nch < g.aidx + 1 ∧ ∃ e, g.cur[(g.aidx + 1).toNat]? = some (some e) ∧
        g' = { g with ocr := g.ocr + hdrStep c, aidx := g.aidx + 1, work := e, phase := .tail }) := by
  unfold headerStep at h
  split at h
  · rename_i hb
    split at h
    · cases h
    · rename_i cur' hc
      obtain ⟨e, he, rfl⟩ := loadWork_ok h
      exact .inl ⟨hb, cur', e, hc, by simpa using he, rfl⟩
  · rename_i hb
    obtain ⟨e, he, rfl⟩ := loadWork_ok h
    exact .inr ⟨hb, e, he, rfl⟩

/-- What a compare match can do: toggle the pin, and run the handler step that PHASE names when the
handler is enabled. -/
theorem compareMatch_ok {c : Config} {g g' : Gen} (h : compareMatch c g = .ok g') :
    (g.cie = false ∧ g' = togglePin g) ∨
      (g.cie = true ∧ g.phase = .header ∧ headerStep c (togglePin g) = .ok g') ∨
      (g.cie = true ∧ g.phase = .tail ∧ g' = tailStep (togglePin g)) := by
  unfold compareMatch at h
  split at h
  · rename_i hc
    split at h
    · rename_i hp
      exact .inr (.inl ⟨hc, hp, h⟩)
    · rename_i hp
      cases h
      exact .inr (.inr ⟨hc, hp, rfl⟩)
  · rename_i hc
    cases h
    exact .inl ⟨by simpa using hc, rfl⟩

/-- What one timer count can do. -/
theorem timerTick_ok {c : Config} {g g' : Gen} (h : timerTick c g = .ok g') :
    (g.cnt + 1 = g.ocr ∧ compareMatch c { g with cnt := g.cnt + 1 } = .ok g') ∨
      (g.cnt + 1 ≠ g.ocr ∧ g' = { g with cnt := g.cnt + 1 }) := by
  unfold timerTick at h
  split at h
  · rename_i hm; exact .inl ⟨hm, h⟩
  · rename_i hm; cases h; exact .inr ⟨hm, rfl⟩

/-! The toggle changes the pin alone. -/

@[simp] theorem togglePin_pol (g : Gen) : (togglePin g).pol = g.pol := rfl
@[simp] theorem togglePin_nch (g : Gen) : (togglePin g).nch = g.nch := rfl
@[simp] theorem togglePin_periodUs (g : Gen) : (togglePin g).periodUs = g.periodUs := rfl
@[simp] theorem togglePin_en (g : Gen) : (togglePin g).en = g.en := rfl
@[simp] theorem togglePin_next (g : Gen) : (togglePin g).next = g.next := rfl
@[simp] theorem togglePin_cur (g : Gen) : (togglePin g).cur = g.cur := rfl
@[simp] theorem togglePin_aidx (g : Gen) : (togglePin g).aidx = g.aidx := rfl
@[simp] theorem togglePin_phase (g : Gen) : (togglePin g).phase = g.phase := rfl
@[simp] theorem togglePin_work (g : Gen) : (togglePin g).work = g.work := rfl
@[simp] theorem togglePin_sync (g : Gen) : (togglePin g).sync = g.sync := rfl
@[simp] theorem togglePin_cnt (g : Gen) : (togglePin g).cnt = g.cnt := rfl
@[simp] theorem togglePin_ocr (g : Gen) : (togglePin g).ocr = g.ocr := rfl
@[simp] theorem togglePin_tog (g : Gen) : (togglePin g).tog = g.tog := rfl
@[simp] theorem togglePin_cie (g : Gen) : (togglePin g).cie = g.cie := rfl
@[simp] theorem togglePin_pin (g : Gen) : (togglePin g).pin = if g.tog then !g.pin else g.pin := rfl

/-! TailStep changes OCR, WORK, TOG and PHASE. -/

@[simp] theorem tailStep_pol (g : Gen) : (tailStep g).pol = g.pol := rfl
@[simp] theorem tailStep_nch (g : Gen) : (tailStep g).nch = g.nch := rfl
@[simp] theorem tailStep_periodUs (g : Gen) : (tailStep g).periodUs = g.periodUs := rfl
@[simp] theorem tailStep_en (g : Gen) : (tailStep g).en = g.en := rfl
@[simp] theorem tailStep_next (g : Gen) : (tailStep g).next = g.next := rfl
@[simp] theorem tailStep_cur (g : Gen) : (tailStep g).cur = g.cur := rfl
@[simp] theorem tailStep_aidx (g : Gen) : (tailStep g).aidx = g.aidx := rfl
@[simp] theorem tailStep_sync (g : Gen) : (tailStep g).sync = g.sync := rfl
@[simp] theorem tailStep_cnt (g : Gen) : (tailStep g).cnt = g.cnt := rfl
@[simp] theorem tailStep_cie (g : Gen) : (tailStep g).cie = g.cie := rfl
@[simp] theorem tailStep_pin (g : Gen) : (tailStep g).pin = g.pin := rfl
@[simp] theorem tailStep_ocr (g : Gen) : (tailStep g).ocr = g.ocr + tailAdd g.work := rfl
@[simp] theorem tailStep_work (g : Gen) : (tailStep g).work = tailWork g.work := rfl
@[simp] theorem tailStep_tog (g : Gen) : (tailStep g).tog = tailDone (tailWork g.work) := rfl
@[simp] theorem tailStep_phase (g : Gen) :
    (tailStep g).phase = if tailDone (tailWork g.work) then .header else g.phase := rfl

/-! ### The edge routine -/

/-- What an edge does to one instance: nothing where it is not heard; else the synchro branch, the
channel branch or the overflow branch. -/
theorem Dec.edge_cases (x : Dec) (line : BitVec 8) (ts : Micros) :
    (x.hears line = false ∧ x.edge line ts = x) ∨
      (x.hears line = true ∧ x.isSync ts = true ∧ x.edge line ts = x.syncEdge ts) ∨
      (x.hears line = true ∧ x.isSync ts = false ∧ x.hasRoom = true ∧ x.edge line ts = x.storeEdge ts) ∨
      (x.hears line = true ∧ x.isSync ts = false ∧ x.hasRoom = false ∧ x.edge line ts = x.dropEdge ts) := by
  unfold Dec.edge Dec.onEdge raise
  cases x.hears line <;> cases x.isSync ts <;> cases x.hasRoom <;> simp

/-! ### Runs -/

/-- A run of two lists is the run of the second after the first. -/
theorem runEvents_append (l m : List Instr) (s : State) :
    runEvents (l ++ m) s = (runEvents l s).bind (runEvents m) := by
  induction l generalizing s with
  | nil => rfl
  | cons i l ih =>
    simp only [List.cons_append, runEvents]
    split
    · exact ih _
    · rfl
    · rfl

/-- Timer counts add up. -/
theorem runTicks_add (a b : Nat) (s : State) : runTicks (a + b) s = (runTicks a s).bind (runTicks b) := by
  induction a generalizing s with
  | zero => simp [runTicks]
  | succ a ih =>
    rw [Nat.succ_add]
    simp only [runTicks]
    split
    · exact ih _
    · rfl
    · rfl

/-! ### Runs -/

/-- A run that goes on completes its first event. -/
theorem runEvents_cons_some {i : Instr} {l : List Instr} {s u : State} :
    runEvents (i :: l) s = some u ↔ ∃ t, exec i s = .next t ∧ runEvents l t = some u := by
  simp only [runEvents]
  split <;> simp_all

/-- After a completed event the rest of the list avoids what the whole list avoids. -/
theorem avoids_cons {bad : Instr → State → Bool} {i : Instr} {l : List Instr} {s t : State}
    (h : exec i s = .next t) : avoids bad (i :: l) s = (!bad i s && avoids bad l t) := by
  simp only [avoids, h]

end Sys2Proof.Machine
end

