-- ==== Sys2Proof/Laws/PerInstr.lean ====
section
/-! SUPPORT. The family EncodesRow, one lemma per event: the word `encode` gives carries its row's
opcode and has every must-be-zero bit clear (30_encoding.md R60, R63). -/

namespace Sys2Proof.Laws

/-- The word of an event matches its row of 30_encoding.md R63. -/
def EncodesRow.Statement (i : Instr) : Prop := encode i &&& i.op.maskWord = i.op.matchWord

theorem EncodesRow.tUs2t (us : Micros) : EncodesRow.Statement (.tUs2t us) := by
  refine BitVec.eq_of_getLsbD_eq fun k hk => ?_
  interval_cases k <;> simp [encode, place, Instr.op, Op.maskWord, Op.matchWord]

theorem EncodesRow.gInit (a : Bool) (p : Polarity) (n : BitVec 4) (per : Micros) : EncodesRow.Statement (.gInit a p n per) := by
  refine BitVec.eq_of_getLsbD_eq fun k hk => ?_
  interval_cases k <;> simp [encode, place, Instr.op, Op.maskWord, Op.matchWord]

theorem EncodesRow.gSetw (ch : BitVec 4) (w : Micros) : EncodesRow.Statement (.gSetw ch w) := by
  refine BitVec.eq_of_getLsbD_eq fun k hk => ?_
  interval_cases k <;> simp [encode, place, Instr.op, Op.maskWord, Op.matchWord]

theorem EncodesRow.gPoll (m : FlagSet) : EncodesRow.Statement (.gPoll m) := by
  refine BitVec.eq_of_getLsbD_eq fun k hk => ?_
  interval_cases k <;> simp [encode, place, Instr.op, Op.maskWord, Op.matchWord]

theorem EncodesRow.gCmatch : EncodesRow.Statement .gCmatch := by
  refine BitVec.eq_of_getLsbD_eq fun k hk => ?_
  interval_cases k <;> simp [encode, place, Instr.op, Op.maskWord, Op.matchWord]

theorem EncodesRow.gTick : EncodesRow.Statement .gTick := by
  refine BitVec.eq_of_getLsbD_eq fun k hk => ?_
  interval_cases k <;> simp [encode, place, Instr.op, Op.maskWord, Op.matchWord]

theorem EncodesRow.dAttach (d : BitVec 3) (sl : Bool) (ln : BitVec 8) : EncodesRow.Statement (.dAttach d sl ln) := by
  refine BitVec.eq_of_getLsbD_eq fun k hk => ?_
  interval_cases k <;> simp [encode, place, Instr.op, Op.maskWord, Op.matchWord]

theorem EncodesRow.dEdge (ln : BitVec 8) (ts : Micros) : EncodesRow.Statement (.dEdge ln ts) := by
  refine BitVec.eq_of_getLsbD_eq fun k hk => ?_
  interval_cases k <;> simp [encode, place, Instr.op, Op.maskWord, Op.matchWord]

theorem EncodesRow.dNb (d : BitVec 3) : EncodesRow.Statement (.dNb d) := by
  refine BitVec.eq_of_getLsbD_eq fun k hk => ?_
  interval_cases k <;> simp [encode, place, Instr.op, Op.maskWord, Op.matchWord]

theorem EncodesRow.dWidth (d : BitVec 3) (ch : BitVec 4) : EncodesRow.Statement (.dWidth d ch) := by
  refine BitVec.eq_of_getLsbD_eq fun k hk => ?_
  interval_cases k <;> simp [encode, place, Instr.op, Op.maskWord, Op.matchWord]

theorem EncodesRow.dPeriod (d : BitVec 3) : EncodesRow.Statement (.dPeriod d) := by
  refine BitVec.eq_of_getLsbD_eq fun k hk => ?_
  interval_cases k <;> simp [encode, place, Instr.op, Op.maskWord, Op.matchWord]

theorem EncodesRow.dIssync (d : BitVec 3) (m : FlagSet) : EncodesRow.Statement (.dIssync d m) := by
  refine BitVec.eq_of_getLsbD_eq fun k hk => ?_
  interval_cases k <;> simp [encode, place, Instr.op, Op.maskWord, Op.matchWord]

theorem EncodesRow.dSuspend (d : BitVec 3) : EncodesRow.Statement (.dSuspend d) := by
  refine BitVec.eq_of_getLsbD_eq fun k hk => ?_
  interval_cases k <;> simp [encode, place, Instr.op, Op.maskWord, Op.matchWord]

theorem EncodesRow.dResume (d : BitVec 3) (now : Micros) : EncodesRow.Statement (.dResume d now) := by
  refine BitVec.eq_of_getLsbD_eq fun k hk => ?_
  interval_cases k <;> simp [encode, place, Instr.op, Op.maskWord, Op.matchWord]

theorem EncodesRow.tEnc (t : BitVec 15) : EncodesRow.Statement (.tEnc t) := by
  refine BitVec.eq_of_getLsbD_eq fun k hk => ?_
  interval_cases k <;> simp [encode, place, Instr.op, Op.maskWord, Op.matchWord]

theorem EncodesRow.tDec (e : BitVec 16) : EncodesRow.Statement (.tDec e) := by
  refine BitVec.eq_of_getLsbD_eq fun k hk => ?_
  interval_cases k <;> simp [encode, place, Instr.op, Op.maskWord, Op.matchWord]

end Sys2Proof.Laws
end

