-- ==== Sys2Proof/Machine/Text.lean ====
section
/-! DEFINITION. The textual form of an event (30_encoding.md R66), numbers in decimal. No meaning uses
it. -/

namespace Sys2Proof

/-- Operands separated by commas (30_encoding.md R66). -/
def commaSep : List String → String
  | [] => ""
  | [a] => a
  | a :: b :: rest => a ++ ", " ++ commaSep (b :: rest)

/-- An environment bit: written only when 0, as a trailing mark (30_encoding.md R66). -/
def envMark (mark : String) (ok : Bool) : String := if ok then "" else " " ++ mark

/-- The name of a polarity in the text (30_encoding.md R66). -/
def polText : Polarity → String
  | .positive => "pos"
  | .negative => "neg"

/-- A field in decimal. -/
def numText {n : Nat} (v : BitVec n) : String := toString v.toNat

/-- The textual form of an event (30_encoding.md R66). -/
def Instr.text : Instr → String
  | .tUs2t us => "T.US2T " ++ numText us
  | .gInit a p n per =>
    "G.INIT " ++ commaSep [polText p, numText n, numText per] ++ envMark "!noalloc" a
  | .gSetw ch w => "G.SETW " ++ commaSep [numText ch, numText w]
  | .gPoll m => "G.POLL " ++ numText m
  | .gCmatch => "G.CMATCH"
  | .gTick => "G.TICK"
  | .dAttach d sl ln => "D.ATTACH " ++ commaSep [numText d, numText ln] ++ envMark "!noslot" sl
  | .dEdge ln ts => "D.EDGE " ++ commaSep [numText ln, numText ts]
  | .dNb d => "D.NB " ++ numText d
  | .dWidth d ch => "D.WIDTH " ++ commaSep [numText d, numText ch]
  | .dPeriod d => "D.PERIOD " ++ numText d
  | .dIssync d m => "D.ISSYNC " ++ commaSep [numText d, numText m]
  | .dSuspend d => "D.SUSPEND " ++ numText d
  | .dResume d now => "D.RESUME " ++ commaSep [numText d, numText now]
  | .tEnc t => "T.ENC " ++ numText t
  | .tDec e => "T.DEC " ++ numText e

end Sys2Proof
end

