-- ==== Sys2Proof/Tests/Slice0.lean ====
section
/-! SUPPORT. The model's own tests: the well-formedness check, decoding, one or two small theorems per
event with values from spec/95_test_vectors.md, and for every statement with hypotheses a state and
operands that meet them (test_witness_<Name>). -/

namespace Sys2Proof.Tests

open Sys2Proof Sys2Proof.Machine

/-- The next state of an outcome, or a given state where it stops. -/
def nextOr (s : State) : Host.Outcome State Fault Refusal → State
  | .next t => t
  | .fault _ => s
  | .refused _ => s

/-- The outcome is a next state. -/
def isNext : Host.Outcome State Fault Refusal → Bool
  | .next _ => true
  | .fault _ => false
  | .refused _ => false

/-- A completed outcome has a next state. -/
theorem next_of_isNext : ∀ {o : Host.Outcome State Fault Refusal}, isNext o = true → ∃ t, o = .next t
  | .next t, _ => ⟨t, rfl⟩

/-- The outcome is a refusal. -/
def isRefused : Host.Outcome State Fault Refusal → Bool
  | .next _ => false
  | .fault _ => false
  | .refused _ => true

/-- A state after one event. -/
def after (s : State) (i : Instr) : State := nextOr s (exec i s)

/-- A table's slot, packed. -/
def slot (t : Table) (k : Nat) : Option (BitVec 16) :=
  match t[k]? with
  | some (some e) => some (pack e)
  | some none => none
  | none => none

/-- Decoder instance d of a state. -/
def decOf (s : State) (d : Nat) : Dec := (s.dec[d]?).getD Dec.reset

/-- Start states: four channels, two channels; a count before the first match; both instances attached. -/
def live : State := after State.reset (.gInit true .positive 4 20000)
def live2 : State := after State.reset (.gInit true .positive 2 10000)
def beforeMatch : State := { live with gen := { live.gen with cnt := 255 } }
def inFrame : State := after beforeMatch .gTick
def heard : State := after (after State.reset (.dAttach 0 true 3)) (.dAttach 1 true 3)
/-- Instance 0 of `heard` with the given cursor and previous timestamp. -/
def atCursor (w : BitVec 8) (prev : Micros) : State :=
  heard.setDec 0 { decOf heard 0 with widx := w, prevTs := prev }
/-- A tail with the given working encoding. -/
def inTail (w : EncodedWidth) (ocr : Count8) : State :=
  { inFrame with gen := { inFrame.gen with work := w, ocr := ocr } }

/-! ### Well-formedness: the one check -/

theorem test_wf_absent_instance_refused : (Instr.dNb 2).wf 2 = false ∧ (Instr.dNb 1).wf 2 = true := by decide
theorem test_wf_refuses_every_instance_event :
    ([.dAttach 2 true 3, .dWidth 2 1, .dPeriod 2, .dIssync 2 1, .dSuspend 2, .dResume 2 0] : List Instr).all
      (fun i => !i.wf 2) = true := by decide

/-! ### Decoding: words written out from 30_encoding.md R60, R61, R63 -/

-- opcode 5 bits, then the fields of the format, most significant first
theorem test_decode_tUs2t : decodeWord 2 0b00001_000_00000000_0000010111011100 = .ok (.tUs2t 1500) := by decide
theorem test_decode_tEnc : decodeWord 2 0b10000_000_00000000_0_000000100101100 = .ok (.tEnc 300) := by decide
theorem test_decode_tDec : decodeWord 2 0b10001_000_00000000_1000000110001010 = .ok (.tDec 0x818A) := by decide
theorem test_decode_gInit :
    decodeWord 2 0b00010_000_00_1_1_0001_0100111000100000 = .ok (.gInit true .negative 1 20000) := by decide
theorem test_decode_gInit_noalloc :
    decodeWord 2 0x10044E20 = .ok (.gInit false .positive 4 20000) := by decide
theorem test_decode_gSetw : decodeWord 2 0b00011_000_0000_0001_0000010111011100 = .ok (.gSetw 1 1500) := by decide
theorem test_decode_gPoll : decodeWord 2 0b00100_000_0000000000000000_00000001 = .ok (.gPoll 1) := by decide
theorem test_decode_gCmatch : decodeWord 2 0b00101_000000000000000000000000000 = .ok .gCmatch := by decide
theorem test_decode_gTick : decodeWord 2 0b00110_000000000000000000000000000 = .ok .gTick := by decide
theorem test_decode_dAttach :
    decodeWord 2 0b01000_001_000000000000000_1_00000111 = .ok (.dAttach 1 true 7) := by decide
theorem test_decode_dAttach_noslot : decodeWord 2 0x40000003 = .ok (.dAttach 0 false 3) := by decide
theorem test_decode_dEdge :
    decodeWord 2 0b01001_000_00000011_0011101010011000 = .ok (.dEdge 3 15000) := by decide
theorem test_decode_dNb : decodeWord 2 0b01010_001_000000000000000000000000 = .ok (.dNb 1) := by decide
theorem test_decode_dWidth : decodeWord 2 0b01011_001_00000000000000000000_0010 = .ok (.dWidth 1 2) := by decide
theorem test_decode_dPeriod : decodeWord 2 0b01100_001_000000000000000000000000 = .ok (.dPeriod 1) := by decide
theorem test_decode_dIssync :
    decodeWord 2 0b01101_000_0000000000000000_10000010 = .ok (.dIssync 0 0x82) := by decide
theorem test_decode_dSuspend : decodeWord 2 0b01110_000_000000000000000000000000 = .ok (.dSuspend 0) := by decide
theorem test_decode_dResume :
    decodeWord 2 0b01111_000_00000000_1100001101010000 = .ok (.dResume 0 50000) := by decide
-- V-RSV-1 to V-RSV-10, V-ATT-5
theorem test_decode_reserved :
    ([0x00000000, 0x38000000, 0x90000000, 0xFFFFFFFF].all fun w =>
      decide (decodeWord 2 w = .error .unknownOpcode)) = true ∧
    ([0x28000001, 0x20000100, 0x11244E20, 0x80008000, 0x58000010].all fun w =>
      decide (decodeWord 2 w = .error .mustBeZero)) = true ∧
    ([0x52000000, 0x42000103].all fun w => decide (decodeWord 2 w = .error .absentInstance)) = true := by decide
theorem test_table_word : decodeTableWord 32 0x5F000009 = some (.dWidth 7 9) ∧ decodeTableWord 16 0x10000 = none := by
  decide
-- the textual form (R66)
theorem test_text :
    (Instr.gInit true .positive 4 20000).text = "G.INIT pos, 4, 20000" ∧
    (Instr.gInit false .negative 1 10000).text = "G.INIT neg, 1, 10000 !noalloc" ∧
    (Instr.dAttach 0 true 3).text = "D.ATTACH 0, 3" ∧ Instr.gTick.text = "G.TICK" := by decide

/-! ### Tick arithmetic: 95_test_vectors.md 2.1 to 2.3 -/

theorem test_us2ticks :
    [1, 2, 6, 300, 1500, 65535].map (us2ticks Config.ref) = [0, 1, 2, 75, 375, 16384] ∧
    us2ticks { Config.ref with cal := true } 1500 = 387 ∧
    us2ticks { Config.ref with tickNum := 1, tickDen := 2 } 65535 = 131070 := by decide
theorem test_encode :
    [0, 15, 16, 240, 241, 255, 256, 497, 266, 32497, 32752].map (fun t => pack (encodeTicks t)) =
      [0x8080, 0x808F, 0x0010, 0x00F0, 0x8171, 0x817F, 0x8180, 0x8271, 0x818A, 0xFF71, 0x7FF0] := by decide
theorem test_decoded_and_seg :
    [0x818A, 0x8005, 0x8000, 0x8300, 0x7FFF, 0xFFFF].map (fun v => decodedTicks (unpack v)) =
      [266, -123, -128, 640, 32767, 32639] ∧
    [0x817A, 0x8080, 0x0000, 0x8300, 0xFFFF].map (fun v => segTicks (unpack v)) = [250, 128, 256, 640, 32639] := by
  decide
theorem test_widthTicks :
    [0, 299, 300, 302, 361, 362, 2400, 65535].map (widthTicks Config.ref) =
      [0, 0, 0, 1, 15, 16, 525, 16309] := by decide
theorem test_exec_t :
    (after State.reset (.tUs2t 1500)).resp = some 375 ∧ (after State.reset (.tEnc 266)).resp = some 0x818A ∧
    (after State.reset (.tDec 0x8005)).resp = some (-123) := by decide

/-! ### The generator: 95_test_vectors.md 2.4 to 2.7 -/

-- V-INIT-1
theorem test_gInit_values :
    live.resp = some 1 ∧ live.gen.nch = 4 ∧ live.gen.periodUs = 20000 ∧ live.gen.aidx = 4 ∧
    live.gen.pin = false ∧ [0, 1, 4, 5].map (slot live.gen.next) = [some 0x0D61, some 0x012C, some 0x012C, none] := by
  decide
-- V-INIT-2, V-INIT-4, V-INIT-5
theorem test_gInit_clamps :
    (after State.reset (.gInit true .positive 12 50000)).gen.nch = 8 ∧
    slot (after State.reset (.gInit true .positive 12 50000)).gen.next 0 = some 0x9B8D ∧
    after State.reset (.gInit false .positive 4 20000) = State.reset.respond 0 ∧
    isRefused (exec (.gInit true .positive 0 20000) State.reset) = true := by decide
-- V-SETW-3, V-SETW-7
theorem test_gSetw :
    [0, 1, 2].map (slot (after live (.gSetw 1 600)).gen.next) = [some 0x0E42, some 0x004B, some 0x012C] ∧
    after live (.gSetw 5 1500) = live.respond 0 ∧ after live (.gSetw 0 1500) = live.respond 0 := by decide
-- V-SETW-8, V-SETW-15
theorem test_gSetw_corners :
    [0, 1].map (slot (after (after (after (after live (.gSetw 2 2400)) (.gSetw 3 1000)) (.gSetw 4 2000))
      (.gSetw 1 299)).gen.next) = [some 0x0DAC, some 0x8080] ∧
    [0, 1].map (slot (after live2 (.gSetw 1 1364)).gen.next) = [some 0x06AD, some 0x818A] := by decide
-- V-REG-1, V-REG-3
theorem test_gPoll :
    (after inFrame (.gPoll 1)).resp = some 1 ∧ (after inFrame (.gPoll 1)).gen.sync = 0xFE ∧
    (after (after inFrame (.gPoll 1)) (.gPoll 1)).resp = some 0 := by decide
-- V-TICK-1, V-HS-1 (P1 at t = 256)
theorem test_gTick :
    (after live .gTick).gen = { live.gen with cnt := 1 } ∧ inFrame.gen.ocr = 75 ∧ inFrame.gen.pin = true ∧
    inFrame.gen.sync = 0xFF ∧ inFrame.gen.phase = .tail ∧ pack inFrame.gen.work = 0x0D61 := by decide
-- V-HS-2
theorem test_gCmatch_header :
    (after { inFrame with gen := { inFrame.gen with phase := .header, ocr := 172, sync := 0 } } .gCmatch).gen.ocr = 247 ∧
    (after { inFrame with gen := { inFrame.gen with phase := .header, ocr := 172, sync := 0 } } .gCmatch).gen.aidx = 1 ∧
    (after { inFrame with gen := { inFrame.gen with phase := .header, ocr := 172, sync := 0 } } .gCmatch).gen.sync = 0 := by
  decide
-- V-TS-4, V-TS-5, V-TS-6
theorem test_gCmatch_tail :
    (after (inTail ⟨1, true, 138⟩ 132) .gCmatch).gen.ocr = 14 ∧
    (after (inTail ⟨1, true, 138⟩ 132) .gCmatch).gen.tog = false ∧
    (after (inTail ⟨1, true, 0⟩ 14) .gCmatch).gen.ocr = 142 ∧
    (after (inTail ⟨1, true, 0⟩ 14) .gCmatch).gen.phase = .header ∧
    (after (inTail ⟨0, true, 136⟩ 188) .gCmatch).gen.work = ⟨0, true, 0⟩ ∧
    (after (inTail ⟨0, true, 136⟩ 188) .gCmatch).gen.tog = true := by decide

/-! ### The decoder: 95_test_vectors.md 2.8 to 2.10 -/

-- V-ATT-1, V-ATT-3
theorem test_dAttach :
    (decOf heard 0).att = true ∧ (decOf heard 0).line = 3 ∧ (decOf heard 0).widx = 255 ∧
    (after State.reset (.dAttach 0 false 3)).resp = some 0 ∧
    (decOf (after State.reset (.dAttach 0 false 3)) 0).line = 3 ∧
    (decOf (after State.reset (.dAttach 0 false 3)) 0).bound = false := by decide
-- V-EDGE-2, V-EDGE-3
theorem test_dEdge_threshold :
    (decOf (after (atCursor 2 17600) (.dEdge 3 20599)) 0).buf[2] = 2999 ∧
    (decOf (after (atCursor 2 17600) (.dEdge 3 20599)) 0).widx = 3 ∧
    (decOf (after (atCursor 2 17600) (.dEdge 3 20600)) 0).ccnt = 2 ∧
    (decOf (after (atCursor 2 17600) (.dEdge 3 20600)) 0).sync = 0xFF := by decide
-- V-EDGE-6, V-EDGE-7, V-EDGE-8
theorem test_dEdge_corners :
    (decOf (after (atCursor 9 2964) (.dEdge 3 4464)) 0).widx = 9 ∧
    (decOf (after (atCursor 9 2964) (.dEdge 3 4464)) 0).prevTs = 4464 ∧
    (decOf (after (atCursor 7 65500) (.dEdge 3 1464)) 0).buf[7] = 1500 ∧
    after (atCursor 1 16500) (.dEdge 5 17000) = (atCursor 1 16500).respond 0 := by decide
-- V-NB-1 to V-NB-3
theorem test_dNb :
    [3, 9, 10, 255].map (fun n => (after (heard.setDec 0 { decOf heard 0 with ccnt := n }) (.dNb 0)).resp) =
      [some 3, some 9, some 0, some 0] := by decide
-- V-WID-1 to V-WID-7
theorem test_dWidth :
    [0, 1, 2, 9, 10].map (fun ch =>
      (after (heard.setDec 0 { decOf heard 0 with buf := #v[1500, 1100, 1900, 0, 0, 0, 0, 0, 7] }) (.dWidth 0 ch)).resp) =
      [some 0, some 1500, some 1100, some 7, some 0] := by decide
-- V-PER-1
theorem test_dPeriod :
    (after (heard.setDec 0 { decOf heard 0 with periodEst := 20000 }) (.dPeriod 0)).resp = some 20000 := by decide
-- V-ISS-2
theorem test_dIssync :
    (after (heard.setDec 0 { decOf heard 0 with sync := 0xFE }) (.dIssync 0 0x82)).resp = some 0x82 ∧
    (decOf (after (heard.setDec 0 { decOf heard 0 with sync := 0xFE }) (.dIssync 0 0x82)) 0).sync = 0x7C := by decide
-- V-SUS-1
theorem test_dSuspend :
    (decOf (after (atCursor 4 100) (.dSuspend 0)) 0).att = false ∧
    (decOf (after (atCursor 4 100) (.dSuspend 0)) 0).widx = 255 := by decide
-- V-RES-1, V-RES-2
theorem test_dResume :
    (decOf (after (after (atCursor 4 100) (.dSuspend 0)) (.dResume 0 50000)) 0).att = true ∧
    (decOf (after State.reset (.dResume 0 50000)) 0).att = false ∧
    (decOf (after State.reset (.dResume 0 50000)) 0).prevTs = 50000 := by decide

/-! ### The step -/

theorem test_step_runs_the_placed_word :
    (nextOr State.reset (step (State.reset.withFetchWord 32 0x10244E20))) = live ∧
    isRefused (step State.reset) = true ∧ isRefused (step (State.reset.withFetchWord 32 0)) = true := by decide

/-! ### Witnesses: states and operands that meet the hypotheses of the statements -/

theorem test_witness_DecodeOfEncode : (Instr.dNb 1).wf 2 = true ∧ (Instr.gInit true .positive 15 65535).wf 1 = true := by
  decide
theorem test_witness_EncodeOfDecode : decodeWord 2 0x590000FF = .error .mustBeZero ∧
    decodeWord 2 0x5900000F = .ok (.dWidth 1 15) := by decide
theorem test_witness_ReservedWordsAreRefused :
    (State.reset.events = []) ∧
    ((0x00000000 : EventWord).extractLsb' 27 5 = 0x00) ∧ ((0x38000000 : EventWord).extractLsb' 27 5 = 0x07) ∧
    (0x12 ≤ ((0x90000000 : EventWord).extractLsb' 27 5).toNat) ∧
    ((0x28000001 : EventWord).extractLsb' 27 5 = Op.gCmatch.code ∧
      (0x28000001 : EventWord) &&& Op.gCmatch.maskWord ≠ Op.gCmatch.matchWord) ∧
    (encode (.dNb 2) = 0x52000000 ∧ (Instr.dNb 2).inst? = some 2 ∧
      State.reset.cfg.ndec ≤ (2 : BitVec 3).toNat) := by decide
theorem test_witness_StepRunsTheDecodedEvent :
    (State.reset.withFetchWord 32 0x51000000).events = [0x51000000] ∧
    decodeWord State.reset.cfg.ndec 0x51000000 = .ok (.dNb 1) := by decide
/-- One event of each kind completes on one state: hypotheses of the form `exec i s = .next t`. -/
theorem test_witness_every_event_completes :
    ([.tUs2t 1500, .tEnc 300, .tDec 0x818A, .gInit true .positive 4 20000, .gSetw 4 1500, .gPoll 1, .gCmatch,
      .gTick, .dAttach 0 true 3, .dEdge 3 15000, .dNb 0, .dWidth 0 9, .dPeriod 0, .dIssync 0 1, .dSuspend 0,
      .dResume 0 5] : List Instr).all (fun i => isNext (exec i inFrame)) = true := by decide
theorem test_witness_ConfigurationIsNeverWritten : ∃ t, exec .gTick beforeMatch = .next t := next_of_isNext (by decide)
theorem test_witness_ResponsesLieInTheirRanges :
    ([.gInit false .positive 4 20000, .dAttach 0 false 3, .tEnc 32752, .tDec 0x8000, .tDec 0x7FFF] : List Instr).all
      (fun i => isNext (exec i State.reset)) = true := by decide
theorem test_witness_UsToTicksRoundsToNearestHalfUp : 0 < State.reset.cfg.tickNum := by decide
theorem test_witness_EncPacksTheDecomposition :
    (32752 : BitVec 15).toNat ≤ 32752 ∧ 32752 < (32753 : BitVec 15).toNat := by decide
theorem test_witness_DecodedTicksInvertsEncode :
    (0 ≤ 32752 ∧ 32752 ≤ 32752) ∧ decodedTicks (encodeTicks 32752) = 32752 := by decide
theorem test_witness_EncodeKeepsTheGuard : (encodeTicks 240).rem.toNat = 240 ∧ (encodeTicks 16).rem.toNat = 16 := by
  decide
theorem test_witness_HandlerTicksOfEncode :
    segTicks (encodeTicks 15) = 143 ∧ segTicks (encodeTicks 16) = 16 ∧ segTicks (encodeTicks 32752) = 32752 := by decide
theorem test_witness_InitConfiguresAndEnables :
    ((1 : BitVec 4) ≠ 0 ∧ (15 : BitVec 4) ≠ 0) ∧ specified live.gen.next 4 = true ∧ specified live.gen.next 5 = false := by
  decide
/-- The reset state with n ticks to the µs and a header of 300 µs. -/
def fast (n : Nat) : State := State.resetOf ⟨1, n, false, 300, 2⟩
/-- G.INIT completes on `fast 30`, whose neutral width is a free value. -/
theorem fast30_next : ∃ t, exec (.gInit true .negative 1 20000) (fast 30) = .next t := by
  obtain ⟨r, hr⟩ := storeFiller_exists (c := (fast 30).cfg)
    (g := initTable (fast 30).cfg (fast 30).gen 0 .negative 1 20000) (n := 1) fun i h1 hi => by
      obtain rfl : i = 1 := Nat.le_antisymm hi h1
      exact ⟨_, rfl⟩
  have hn : neutralDraws (fast 30).cfg 0 (clampChannels 1).toNat = 1 := by decide
  have hd : (fast 30).draws = 0 := rfl
  exact ⟨_, by simp only [exec, execGInit, hd, hn, hr]; rfl⟩
theorem test_witness_InitStoresNeutralWidthsAndFiller :
    (∃ t, exec (.gInit true .positive 4 20000) State.reset = .next t) ∧
    (300 = if 1500 < State.reset.cfg.headerUs then 0 else us2ticks State.reset.cfg (1500 - State.reset.cfg.headerUs)) ∧
    -- fillers 32752, 32753, 0 and -1: one channel or eight at a 1 µs tick
    (([(1, 34552), (1, 34553), (8, 12300), (8, 12299)] : List (BitVec 4 × Micros)).all fun p =>
      isNext (exec (.gInit true .negative p.1 p.2) (fast 1))) = true ∧
    ([((1 : Nat), 34552), (1, 34553), (8, 12300), (8, 12299)].map fun p =>
      (us2ticks (fast 1).cfg (min (max p.2 10000) 40000) : Int) - us2ticks (fast 1).cfg (fast 1).cfg.headerUs *
        ((min p.1 8 : Nat) + 1) - (min p.1 8 : Nat) * (1200 : Nat)) = [32752, 32753, 0, -1] ∧
    -- a neutral width of 36000 ticks: 30 ticks to the µs
    32752 < us2ticks (fast 30).cfg (1500 - (fast 30).cfg.headerUs) ∧
    ∃ t, exec (.gInit true .negative 1 20000) (fast 30) = .next t :=
  ⟨next_of_isNext (by decide), by decide, by decide, by decide, by decide, fast30_next⟩
theorem test_witness_InitFailureDisables : (1 : BitVec 4) ≠ 0 ∧ (0 : BitVec 4) = 0 := by decide
/-- One channel at a 1 µs tick, the shortest period and one of 34552 µs. -/
def short1 : State := after (fast 1) (.gInit true .positive 1 10000)
def long1 : State := after (fast 1) (.gInit true .positive 1 34552)
theorem test_witness_SetwStoresChannelThenFiller :
    live.gen.en = true ∧ (4 : BitVec 4) ≠ 0 ∧ (4 : BitVec 4) ≤ live.gen.nch ∧
    (∀ k, k ≤ live.gen.nch.toNat → 1 ≤ k → specified live.gen.next k = true) ∧
    ([0, 299, 300, 302].map fun w => if w < live.cfg.headerUs then 0 else us2ticks live.cfg (w - live.cfg.headerUs)) =
      [0, 0, 0, 1] ∧
    (short1.gen.en = true ∧ (1 : BitVec 4) ≤ short1.gen.nch ∧ specified short1.gen.next 1 = true) ∧
    (long1.gen.en = true ∧ (1 : BitVec 4) ≤ long1.gen.nch ∧ specified long1.gen.next 1 = true) := by decide
/-- Fillers 0 and -1, 32752 and 32753; and a width of 32752 and of 32753 ticks. -/
theorem test_witness_SetwStoresChannelThenFiller_boundaries :
    fillerTicks short1.cfg (after short1 (.gSetw 1 9700)).gen = .ok 0 ∧
    fillerTicks short1.cfg (after short1 (.gSetw 1 9701)).gen = .ok (-1) ∧
    fillerTicks long1.cfg (after long1 (.gSetw 1 1500)).gen = .ok 32752 ∧
    fillerTicks long1.cfg (after long1 (.gSetw 1 1499)).gen = .ok 32753 ∧
    us2ticks short1.cfg (33052 - 300) = 32752 ∧ us2ticks short1.cfg (33053 - 300) = 32753 := by decide
theorem test_witness_FillerIsPeriodLessHeadersLessChannels :
    live.gen.nch.toNat = 4 ∧
    ∀ k, k ≤ 4 → 1 ≤ k → live.gen.next[k]? = some (some (encodeTicks 300)) := by decide
theorem test_witness_IndexOutOfRangePerformsNoAccess :
    ((0 : BitVec 4) = 0 ∧ live.gen.nch < 5 ∧ ¬ live.gen.nch < 4) ∧
    ((1 : BitVec 3).toNat < heard.dec.length ∧ 9 < (10 : BitVec 4).toNat) ∧
    ((atCursor 9 2964).dec[0]? = some (decOf (atCursor 9 2964) 0) ∧ 9 ≤ (decOf (atCursor 9 2964) 0).widx.toNat) := by
  decide
theorem test_witness_SetwIsIdempotent :
    (∃ t, exec (.gSetw 1 600) live = .next t) ∧ widthTicks live.cfg 600 ≤ 32752 ∧
    fillerTicks live.cfg (after live (.gSetw 1 600)).gen = .ok 3650 := ⟨next_of_isNext (by decide), by decide, by decide⟩
theorem test_witness_DisabledBlockIsIdle :
    State.reset.gen.en = false ∧ State.reset.gen.cie = false ∧ State.reset.gen.tog = false ∧
    ∀ x ∈ State.reset.dec, x.att = false := by decide
theorem test_witness_PollReturnsAndClearsMaskedBits : heard.dec[(1 : BitVec 3).toNat]? = some (decOf heard 1) := by decide
theorem test_witness_PolledBitStaysClearUntilSignal :
    (0x80 : FlagSet).getLsbD 7 = true ∧ (∃ t, exec (.gPoll 0x80) inFrame = .next t) ∧
    (∃ t, exec (.dIssync 1 0x80) heard = .next t) ∧
    -- time passes, the handler runs its tail, a synchro edge is heard; none of it commits
    avoids commitsAt [.gTick, .gCmatch, .dEdge 3 9000, .gSetw 1 600] (after inFrame (.gPoll 0x80)) = true ∧
    (runEvents [.gTick, .gCmatch, .dEdge 3 9000, .gSetw 1 600] (after inFrame (.gPoll 0x80))).isSome = true ∧
    -- an edge after 2999 µs, and one after 3000 µs on a line nobody hears
    avoids (synchroAt 1) [.dEdge 3 2999, .dEdge 4 5999, .gTick] (after heard (.dIssync 1 0x80)) = true ∧
    (runEvents [.dEdge 3 2999, .dEdge 4 5999, .gTick] (after heard (.dIssync 1 0x80))).isSome = true :=
  ⟨by decide, next_of_isNext (by decide), next_of_isNext (by decide), by decide, by decide, by decide, by decide⟩
theorem test_witness_FirstPollAfterSignalReturnsTheBit :
    (commitsAt .gTick beforeMatch = true ∧ commitsAt .gCmatch beforeMatch = true ∧ commitsAt .gTick live = false) ∧
    (runEvents [.gTick, .gPoll 0x7F, .gInit false .positive 4 20000] inFrame).isSome = true ∧
    (0x7F : FlagSet).getLsbD 7 = false ∧
    (synchroAt 1 (.dEdge 3 3000) heard = true ∧ synchroAt 1 (.dEdge 3 2999) heard = false) ∧
    (runEvents [.dIssync 1 0x7F, .dIssync 0 0xFF, .dAttach 0 true 3, .dSuspend 1] (after heard (.dEdge 3 3000))).isSome = true ∧
    isNext (exec .gTick beforeMatch) = true ∧ isNext (exec (.dEdge 3 3000) heard) = true := by decide
theorem test_witness_MatchTogglesThePinWhenTogIsSet :
    (∃ t, exec .gCmatch live = .next t) ∧ State.reset.gen.cie = false := ⟨next_of_isNext (by decide), rfl⟩
/-- A frame's slot 3 at its Header phase: the next slot is the last. -/
def headerOf3 : State := { inFrame with gen := { inFrame.gen with phase := .header, aidx := 3 } }
theorem test_witness_HeaderStepLoadsTheNextSlot :
    headerOf3.gen.cie = true ∧ headerOf3.gen.phase = .header ∧
    headerOf3.gen.aidx.toNat + 1 ≤ headerOf3.gen.nch.toNat ∧
    headerOf3.gen.cur[headerOf3.gen.aidx.toNat + 1]? = some (some (encodeTicks 300)) := by decide
theorem test_witness_HeaderStepCommitsAtFrameBoundary :
    live.gen.cie = true ∧ live.gen.phase = .header ∧ live.gen.aidx = live.gen.nch ∧
    ∀ k, k ≤ live.gen.nch.toNat → specified live.gen.next k = true := by decide
theorem test_witness_TailStepConsumesTheWorkingEncoding :
    ([⟨0, false, 1⟩, ⟨127, true, 255⟩, ⟨1, true, 0⟩, ⟨0, true, 0⟩].all fun w =>
      (inTail w 9).gen.cie && decide ((inTail w 9).gen.phase = .tail)) = true := by decide
theorem test_witness_TickCountsAndMatchesAtCompare :
    live.gen.cnt + 1 ≠ live.gen.ocr ∧ beforeMatch.gen.cnt + 1 = beforeMatch.gen.ocr := by decide
theorem test_witness_NextMatchComesAfterItsDelay :
    inFrame.gen.ocr = inFrame.gen.cnt + 75 ∧ live.gen.ocr = live.gen.cnt + 0 ∧
    74 < (if (75 : Count8) = 0 then 256 else (75 : Count8).toNat) ∧
    255 < (if (0 : Count8) = 0 then 256 else (0 : Count8).toNat) := by decide
theorem test_witness_ClosedModelPerformsTheOpenModelsMatch :
    inFrame.gen.ocr = inFrame.gen.cnt + 75 ∧
    ∃ t, exec .gCmatch { inFrame with gen := { inFrame.gen with cnt := inFrame.gen.ocr } } = .next t :=
  ⟨by decide, next_of_isNext (by decide)⟩
theorem test_witness_SlotLastsHeaderAndTail :
    beforeMatch.gen.cie = true ∧ beforeMatch.gen.phase = .header ∧ beforeMatch.gen.tog = true ∧
    MatchDue beforeMatch.gen ∧ (∃ t, exec .gTick beforeMatch = .next t) ∧ headerLen beforeMatch.cfg = 75 ∧
    segTicks inFrame.gen.work = 3425 :=
  ⟨by decide, by decide, by decide, by decide, next_of_isNext (by decide), by decide, by decide⟩
theorem test_witness_FrameLastsTheSumOfItsSlots :
    RangesOk beforeMatch.gen ∧ beforeMatch.gen.cie = true ∧ AtBoundary beforeMatch.gen ∧ beforeMatch.gen.tog = true ∧
    MatchDue beforeMatch.gen ∧ (∃ t, exec .gTick beforeMatch = .next t) ∧
    slotsTicks inFrame.cfg inFrame.gen.cur 5 = 5000 :=
  ⟨by decide, by decide, by decide, by decide, by decide, next_of_isNext (by decide), by decide⟩
theorem test_witness_SoundPendingSetLastsThePeriod :
    HeaderSound live.cfg ∧ live.gen.nch.toNat = 4 ∧
    (∀ k, k ≤ 4 → 1 ≤ k → live.gen.next[k]? = some (some (encodeTicks 300))) ∧
    fillerTicks live.cfg live.gen = .ok 3425 ∧ live.gen.next[0]? = some (some (encodeTicks 3425)) := by decide
theorem test_witness_HeaderSound_full_cycle : HeaderSound ⟨1, 1, false, 256, 2⟩ ∧ ¬ HeaderSound ⟨1, 1, false, 300, 2⟩ := by
  decide
theorem test_witness_PendingSetStaysConsistent :
    PendingConsistent (State.reset.withFetchWord 32 0x10244E20) ∧
    ∃ t, step (State.reset.withFetchWord 32 0x10244E20) = .next t := ⟨(by intro h; cases h), next_of_isNext (by decide)⟩
theorem test_witness_PendingWritesAreInvisibleUntilCommit :
    (runTicks 1 live).isSome = true ∧ ¬ MatchDue live.gen := by decide
theorem test_witness_writers :
    (∃ t, exec (.gSetw 1 600) live = .next t) ∧ (∃ t, exec .gTick beforeMatch = .next t) ∧
    (∃ t, exec (.gPoll 0xFF) inFrame = .next t) ∧ (∃ t, exec (.dEdge 3 9000) heard = .next t) ∧
    heard.dec[1]? = some (decOf heard 1) ∧ (after heard (.dEdge 3 9000)).dec[1]? = some (decOf (after heard (.dEdge 3 9000)) 1) ∧
    (after live (.gSetw 1 600)).gen.next ≠ live.gen.next ∧ inFrame.gen.cur ≠ beforeMatch.gen.cur ∧
    (decOf heard 1).sync.getLsbD 0 = false ∧ (decOf (after heard (.dEdge 3 9000)) 1).sync.getLsbD 0 = true :=
  ⟨next_of_isNext (by decide), next_of_isNext (by decide), next_of_isNext (by decide), next_of_isNext (by decide), by decide, by decide, by decide, by decide, by decide, by decide⟩
theorem test_witness_NoStateIsShared :
    (∃ t, exec (.dSuspend 1) heard = .next t) ∧ (Instr.dSuspend 1).inst? = some 1 ∧ 0 ≠ (1 : BitVec 3).toNat ∧
    Instr.part .gTick ≠ .decoder ∧ Instr.part (.dSuspend 1) ≠ .generator := ⟨next_of_isNext (by decide), by decide, by decide, by decide, by decide⟩
theorem test_witness_GeneratorAndDecoderEventsCommute :
    Instr.part .gTick = .generator ∧ Instr.part (.dEdge 3 9000) = .decoder ∧
    (∃ t, exec .gTick beforeMatch = .next t) ∧ ∃ t, exec (.dEdge 3 9000) inFrame = .next t :=
  ⟨by decide, by decide, next_of_isNext (by decide), next_of_isNext (by decide)⟩
theorem test_witness_AttachResetsTheInstance : (1 : BitVec 3).toNat < State.reset.dec.length := by decide
theorem test_witness_EdgeClassifiesTheInterval :
    (∀ w ∈ [0, 8, 9, 255], (atCursor w 17600).dec[0]? = some (decOf (atCursor w 17600) 0) ∧
      (decOf (atCursor w 17600) 0).att = true ∧ (decOf (atCursor w 17600) 0).line = 3 ∧
      (decOf (atCursor w 17600) 0).widx = w) ∧
    2999 = ((20599 : Micros).toNat + 65536 - (17600 : Micros).toNat) % 65536 ∧
    3000 = ((20600 : Micros).toNat + 65536 - (17600 : Micros).toNat) % 65536 ∧
    ¬ ((decOf State.reset 0).att = true ∧ (decOf State.reset 0).line = 3) := by decide
theorem test_witness_instance_reads :
    heard.dec[(0 : BitVec 3).toNat]? = some (decOf heard 0) ∧ (decOf heard 0).buf[(9 : BitVec 4).toNat - 1]? = some 0 ∧
    1 ≤ (1 : BitVec 4).toNat ∧ (9 : BitVec 4).toNat ≤ 9 := by decide
theorem test_witness_ReadsHaveNoSideEffect :
    (Instr.dWidth 0 9).op = .dWidth ∧ (∃ t, exec (.dWidth 0 9) heard = .next t) ∧
    (∀ j ∈ ([.dSuspend 0, .gTick] : List Instr), j.op ≠ .dEdge ∧ j.op ≠ .dAttach) ∧
    (runEvents [.dSuspend 0, .gTick] (after heard (.dWidth 0 9))).isSome = true ∧
    (∃ t, exec (.gPoll 1) inFrame = .next t) ∧ (∃ t, exec (.dIssync 0 1) heard = .next t) :=
  ⟨by decide, next_of_isNext (by decide), by decide, by decide, next_of_isNext (by decide), next_of_isNext (by decide)⟩
theorem test_witness_StaleFrameIsNeverCommitted :
    heard.dec[(0 : BitVec 3).toNat]? = some (decOf heard 0) ∧ (decOf heard 0).att = true ∧
    (decOf heard 0).line = 3 ∧ (decOf heard 0).widx = 255 ∧ (∀ v ∈ ([0, 2999] : List Micros), v.toNat < 3000) ∧
    3000 ≤ (3000 : Micros).toNat :=
  ⟨by decide, by decide, by decide, by decide, by simp, by simp⟩
theorem test_witness_FrameIsReconstructed :
    (decOf heard 0).att = true ∧ (decOf heard 0).line = 3 ∧ 3000 ≤ ((3000 : Micros) - (decOf heard 0).prevTs).toNat ∧
    (∀ v ∈ ([1500, 1100, 2999] : List Micros), v.toNat < 3000) ∧ 3000 ≤ (65535 : Micros).toNat :=
  ⟨by decide, by decide, by decide, by simp, by simp⟩
theorem test_witness_ConditionsAreSilent :
    conditionsOf (.gInit false .positive 4 20000) live = [.resourceExhaustion] ∧
    conditionsOf (.gSetw 5 1500) live = [.invalidChannel] ∧ conditionsOf (.dWidth 0 10) heard = [.invalidChannel] ∧
    conditionsOf (.dEdge 3 5963) (atCursor 9 2964) = [.capacityOverflow] ∧
    conditionsOf (.dEdge 3 5964) (atCursor 9 2964) = [] ∧
    conditionsOf (.gInit true .negative 8 5000) State.reset = [.timingViolation] ∧
    conditionsOf (.gSetw 1 9701) short1 = [.timingViolation] ∧ conditionsOf (.gSetw 1 9700) short1 = [] ∧
    conditionsOf (.dAttach 0 false 3) State.reset = [.captureUnavailable] := by decide
theorem test_witness_ResetMeetsTheInvariant : Config.ref.wf = true ∧ (Config.wf ⟨1, 2, true, 65535, 8⟩) = true := by decide
theorem test_witness_StepKeepsTheInvariant :
    Inv (beforeMatch.withFetchWord 32 0x30000000) ∧ (∃ t, step (beforeMatch.withFetchWord 32 0x30000000) = .next t) ∧
    Inv inFrame := ⟨by decide, next_of_isNext (by decide), by decide⟩
theorem test_witness_EveryAdmittedEventCompletes :
    Inv inFrame ∧ (Instr.dNb 1).wf inFrame.cfg.ndec = true ∧ ∀ a pol per, Instr.dNb 1 ≠ .gInit a pol 0 per :=
  ⟨by decide, by decide, by intro a pol per h; cases h⟩
theorem test_witness_FirstCommitIs256CountsAfterReset :
    ∃ t, exec (.gInit true .negative 1 10000) (State.resetOf Config.ref) = .next t := next_of_isNext (by decide)

end Sys2Proof.Tests
end

section
/-! PROOFS. Memory (20_memory.md): what an operation with an index outside its range leaves alone (R42),
and that the host's reads have no side effect (R45). -/

namespace Sys2Proof.Machine

/-! ### An operation that only reads a decoder -/

/-- An operation that gives its decoder back as it was changes the response alone. -/
theorem onDec_read {s : State} {d : BitVec 3} {x : Dec} (v : Dec → Int) (hx : s.dec[d.toNat]? = some x) :
    onDec s d (fun y => (y, v y)) = .next (s.respond (v x)) := by
  rw [onDec_some hx, State.setDec_self hx]

/-! ### Indices outside their range -/

/-- G.SETW with a channel that is not valid changes the response alone, whether or not the engine is
enabled (41_generator.md R101). -/
theorem execGSetw_of_not_validChannel {s : State} {ch : BitVec 4} (width : Micros)
    (h : validChannel s.gen ch = false) : execGSetw ch width s = .next (s.respond 0) := by
  unfold execGSetw raise
  cases s.gen.en <;> simp [h]

/-- The channels 0 and above NCH are not valid. -/
theorem validChannel_eq_false_iff {g : Gen} {ch : BitVec 4} :
    validChannel g ch = false ↔ ch = 0 ∨ g.nch < ch := by
  rw [validChannel, decide_eq_false_iff_not, Decidable.not_and_iff_not_or_not, not_not, BitVec.not_le]

/-- The channels 0 and above the capacity of the buffer are not valid for a read. -/
theorem validRead_eq_false_iff {ch : BitVec 4} :
    validRead ch = false ↔ ch = 0 ∨ decCapacity < ch.toNat := by
  rw [validRead, decide_eq_false_iff_not, Decidable.not_and_iff_not_or_not, not_not, Nat.not_le]

/-- The read of a channel that is not valid gives 0 (42_decoder.md R133). -/
theorem Dec.width_of_not_validRead (x : Dec) {ch : BitVec 4} (h : validRead ch = false) :
    x.width ch = 0 := by
  simp [Dec.width, raise, h]

/-- A buffer whose cursor stands at the capacity or above has no room. -/
theorem Dec.hasRoom_eq_false_iff {x : Dec} : x.hasRoom = false ↔ decCapacity ≤ x.widx.toNat := by
  rw [Dec.hasRoom, decide_eq_false_iff_not, Nat.not_lt]

/-- Only the channel branch of the edge routine stores, and it needs room (42_decoder.md R131). -/
theorem Dec.edge_buf_of_not_hasRoom {x : Dec} (line : BitVec 8) (ts : Micros) (h : x.hasRoom = false) :
    (x.edge line ts).buf = x.buf := by
  obtain ⟨-, he⟩ | ⟨-, -, he⟩ | ⟨-, -, hroom, -⟩ | ⟨-, -, -, he⟩ := x.edge_cases line ts
  · rw [he]
  · rw [he, Dec.syncEdge]
  · rw [h] at hroom
    cases hroom
  · rw [he, Dec.dropEdge]

/-- Settles O21: each of the three operations checks its index before it accesses anything. -/
theorem indexOutOfRangePerformsNoAccess : Obligations.IndexOutOfRangePerformsNoAccess := by
  unfold Obligations.IndexOutOfRangePerformsNoAccess
  refine ⟨fun ch width s hch => ?_, fun d ch s hd hch => ?_, fun line ts s => ⟨_, rfl, ?_⟩⟩
  · exact execGSetw_of_not_validChannel width (validChannel_eq_false_iff.mpr hch)
  · have hwidth := s.dec[d.toNat].width_of_not_validRead (validRead_eq_false_iff.mpr hch)
    have hread := onDec_read (fun x => x.width ch) (List.getElem?_eq_getElem hd)
    rw [hwidth] at hread
    exact hread
  · intro d x hx hcursor
    exact ⟨x.edge line ts, by simp [hx],
      Dec.edge_buf_of_not_hasRoom line ts (Dec.hasRoom_eq_false_iff.mpr hcursor)⟩

/-! ### What the decoder has measured -/

/-- What D.NB, D.WIDTH and D.PERIOD read of a decoder. -/
structure Measurement where
  buf : Vector Micros decCapacity
  ccnt : BitVec 8
  periodEst : Micros

/-- What a decoder has measured. -/
def Dec.measurement (x : Dec) : Measurement := ⟨x.buf, x.ccnt, x.periodEst⟩

/-- What the decoders have measured, in their order. -/
def State.measurements (s : State) : List Measurement := s.dec.map Dec.measurement

/-- Equal measurements are equal in each element. -/
theorem Dec.measurement_eq_iff {x y : Dec} :
    x.measurement = y.measurement ↔ x.buf = y.buf ∧ x.ccnt = y.ccnt ∧ x.periodEst = y.periodEst := by
  simp [Dec.measurement]

/-- States with the same measurements have the same decoders present, each with its measurement. -/
theorem exists_dec_of_measurements_eq {s t : State} {d : Nat} {x : Dec}
    (h : t.measurements = s.measurements) (hx : s.dec[d]? = some x) :
    ∃ y, t.dec[d]? = some y ∧ y.measurement = x.measurement := by
  have hd : (t.dec[d]?).map Dec.measurement = some x.measurement := by
    rw [← List.getElem?_map, ← State.measurements, h, State.measurements, List.getElem?_map, hx,
      Option.map_some]
  exact Option.map_eq_some_iff.mp hd

/-- Replacing a decoder by one with its measurement keeps the measurements. -/
theorem State.setDec_measurements {s : State} {d : Nat} {x y : Dec} (hx : s.dec[d]? = some x)
    (hy : y.measurement = x.measurement) : (s.setDec d y).measurements = s.measurements := by
  calc (s.setDec d y).measurements
      = s.measurements.set d y.measurement := List.map_set
    _ = (s.setDec d x).measurements := by rw [hy]; exact List.map_set.symm
    _ = s.measurements := by rw [State.setDec_self hx]

/-- An operation on one decoder that keeps its measurement keeps all of them. -/
theorem onDec_measurements {s t : State} {d : BitVec 3} {f : Dec → Dec × Int}
    (hf : ∀ x, (f x).1.measurement = x.measurement) (h : onDec s d f = .next t) :
    t.measurements = s.measurements := by
  obtain ⟨x, hx, rfl⟩ := onDec_next h
  exact State.setDec_measurements hx (hf x)

/-! ### The events that leave the measurements alone -/

/-- G.INIT leaves the decoders alone. -/
theorem execGInit_dec {a : Bool} {pol : Polarity} {nch : BitVec 4} {per : Micros} {s t : State}
    (h : execGInit a pol nch per s = .next t) : t.dec = s.dec := by
  unfold execGInit raise at h
  split at h
  · cases h
  · split at h
    · split at h <;> cases h
      rfl
    · cases h
      rfl

/-- G.SETW leaves the decoders alone. -/
theorem execGSetw_dec {ch : BitVec 4} {width : Micros} {s t : State}
    (h : execGSetw ch width s = .next t) : t.dec = s.dec := by
  unfold execGSetw raise at h
  split at h
  · split at h
    · split at h <;> cases h
      rfl
    · cases h
      rfl
  · cases h
    rfl

/-- An operation on the generator leaves the decoders alone. -/
theorem onGen_dec {s t : State} {g : Except Fault Gen} {r : Int} (h : onGen s g r = .next t) :
    t.dec = s.dec := by
  obtain ⟨g', -, rfl⟩ := onGen_next h
  rfl

/-- An event of the tick clock or of the generator leaves the decoders alone. -/
theorem exec_dec_of_part_ne_decoder {i : Instr} {s t : State} (hpart : i.part ≠ .decoder)
    (h : exec i s = .next t) : t.dec = s.dec := by
  cases i with
  | tUs2t us => cases h; rfl
  | gInit a pol nch per => exact execGInit_dec h
  | gSetw ch width => exact execGSetw_dec h
  | gPoll m => cases h; rfl
  | gCmatch => exact onGen_dec h
  | gTick => exact onGen_dec h
  | tEnc ticks => cases h; rfl
  | tDec ew => cases h; rfl
  | _ => exact absurd rfl hpart

/-- Every event but D.EDGE and D.ATTACH keeps the measurements. -/
theorem exec_measurements {i : Instr} {s t : State} (hi : i.op ≠ .dEdge ∧ i.op ≠ .dAttach)
    (h : exec i s = .next t) : t.measurements = s.measurements := by
  obtain ⟨hedge, hattach⟩ := hi
  cases i with
  | dEdge line ts => exact absurd rfl hedge
  | dAttach d slotOk line => exact absurd rfl hattach
  | dNb d => exact onDec_measurements (fun _ => rfl) h
  | dWidth d ch => exact onDec_measurements (fun _ => rfl) h
  | dPeriod d => exact onDec_measurements (fun _ => rfl) h
  | dIssync d m => exact onDec_measurements (fun _ => rfl) h
  | dSuspend d => exact onDec_measurements (fun _ => rfl) h
  | dResume d now => exact onDec_measurements (fun _ => rfl) h
  | _ => exact congrArg (List.map Dec.measurement) (exec_dec_of_part_ne_decoder (by simp [Instr.part]) h)

/-- A run without D.EDGE and D.ATTACH keeps the measurements. -/
theorem runEvents_measurements {l : List Instr} {s u : State}
    (hl : ∀ i ∈ l, i.op ≠ .dEdge ∧ i.op ≠ .dAttach) (h : runEvents l s = some u) :
    u.measurements = s.measurements := by
  induction l generalizing s with
  | nil => cases h; rfl
  | cons i l ih =>
    obtain ⟨hi, hrest⟩ := List.forall_mem_cons.mp hl
    obtain ⟨t, hexec, hrun⟩ := runEvents_cons_some.mp h
    exact (ih hrest hrun).trans (exec_measurements hi hexec)

/-! ### The reads and the polls -/

/-- D.NB, D.WIDTH and D.PERIOD give their decoder back as it was and answer with a function of its
measurement (42_decoder.md R132 to R134). -/
theorem exec_read {i : Instr} (hi : i.op = .dNb ∨ i.op = .dWidth ∨ i.op = .dPeriod) :
    ∃ (d : BitVec 3) (v : Dec → Int), (∀ s, exec i s = onDec s d fun x => (x, v x)) ∧
      ∀ x y : Dec, y.measurement = x.measurement → v y = v x := by
  cases i with
  | dNb d =>
    refine ⟨d, fun x => x.count, fun _ => rfl, fun x y h => ?_⟩
    obtain ⟨-, hccnt, -⟩ := Dec.measurement_eq_iff.mp h
    simp only [Dec.count, hccnt]
  | dWidth d ch =>
    refine ⟨d, fun x => x.width ch, fun _ => rfl, fun x y h => ?_⟩
    obtain ⟨hbuf, -, -⟩ := Dec.measurement_eq_iff.mp h
    simp only [Dec.width, hbuf]
  | dPeriod d =>
    refine ⟨d, fun x => x.periodEst.toNat, fun _ => rfl, fun x y h => ?_⟩
    obtain ⟨-, -, hperiod⟩ := Dec.measurement_eq_iff.mp h
    simp only [hperiod]
  | _ => simp [Instr.op] at hi

/-- A read changes the response alone, and in every state with the same measurements it completes with
the same response. -/
theorem exec_read_repeats {i : Instr} {s t : State} (hi : i.op = .dNb ∨ i.op = .dWidth ∨ i.op = .dPeriod)
    (h : exec i s = .next t) :
    ∃ r, t = s.respond r ∧
      ∀ u : State, u.measurements = t.measurements → exec i u = .next (u.respond r) := by
  obtain ⟨d, v, hexec, hv⟩ := exec_read hi
  rw [hexec] at h
  obtain ⟨x, hx, -⟩ := onDec_next h
  rw [onDec_read v hx] at h
  cases h
  refine ⟨v x, rfl, fun u hu => ?_⟩
  obtain ⟨y, hy, hm⟩ := exists_dec_of_measurements_eq hu hx
  rw [hexec, onDec_read v hy, hv x y hm]

/-- A poll clears exactly the bits it returns (43_registry.md R161). -/
theorem pollRest_eq_and_not_polled (f m : FlagSet) : pollRest f m = f &&& ~~~(f &&& m) := by
  ext i hi
  simp only [pollRest, BitVec.getElem_and, BitVec.getElem_not]
  cases f[i] <;> simp

/-- D.ISSYNC of a decoder that exists returns the masked flags and clears them (42_decoder.md R135). -/
theorem exec_dIssync {s : State} {d : BitVec 3} {m : FlagSet} {x : Dec} (hx : s.dec[d.toNat]? = some x) :
    exec (.dIssync d m) s =
      .next ((s.setDec d.toNat { x with sync := x.sync &&& ~~~(x.sync &&& m) }).respond
        (x.sync &&& m).toNat) := by
  rw [← pollRest_eq_and_not_polled]
  exact onDec_some hx

/-- Settles O48: a read answers with a function of what its decoder has measured, which only D.EDGE and
D.ATTACH change; a poll clears what it returns. -/
theorem readsHaveNoSideEffect : Obligations.ReadsHaveNoSideEffect := by
  unfold Obligations.ReadsHaveNoSideEffect
  refine ⟨fun i l s t u hi hexec hl hrun => ?_, fun m s t h => ?_, fun d m x s t hx h => ?_⟩
  · obtain ⟨r, rfl, hrepeat⟩ := exec_read_repeats hi hexec
    exact ⟨rfl, u.respond r, hrepeat u (runEvents_measurements hl hrun), rfl⟩
  · cases h
    exact ⟨rfl, rfl, pollRest_eq_and_not_polled s.gen.sync m⟩
  · rw [exec_dIssync hx] at h
    cases h
    exact ⟨rfl, rfl⟩

end Sys2Proof.Machine
end

section
/-! PROOFS. The generator's Tail phase (41_generator.md R105): what a compare match does to OCR, WORK,
TOG and PHASE, by the three cases of the working encoding. -/

namespace Sys2Proof.Machine

/-! ### A compare match in the Tail phase -/

/-- With the handler enabled and PHASE = Tail, a compare match toggles the pin and runs TailStep
(41_generator.md R103). -/
theorem compareMatch_tail {g : Gen} (c : Config) (hcie : g.cie = true) (hphase : g.phase = .tail) :
    compareMatch c g = .ok (tailStep (togglePin g)) := by
  rw [compareMatch, if_pos hcie, hphase]

/-- The generator's operations that give a value complete. -/
theorem onGen_ok (s : State) (g : Gen) (r : Int) : onGen s (.ok g) r = .next ((s.setGen g).respond r) := rfl

/-- G.CMATCH in the Tail phase completes with response 0 (41_generator.md R103, R105). -/
theorem exec_gCmatch_tail {s : State} (hcie : s.gen.cie = true) (hphase : s.gen.phase = .tail) :
    exec .gCmatch s = .next ((s.setGen (tailStep (togglePin s.gen))).respond 0) :=
  calc exec .gCmatch s
      = onGen s (compareMatch s.cfg s.gen) 0 := rfl
    _ = _ := by rw [compareMatch_tail s.cfg hcie hphase, onGen_ok]

/-! ### The three cases of the working encoding

A remainder comes first, then the overflow count, and with neither nothing is left to consume. -/

/-- A remainder is added to OCR. -/
theorem tailAdd_of_rem {w : EncodedWidth} (hrem : w.rem ≠ 0) : tailAdd w = w.rem :=
  if_pos hrem

/-- A remainder is consumed whole. -/
theorem tailWork_of_rem {w : EncodedWidth} (hrem : w.rem ≠ 0) : tailWork w = { w with rem := 0 } :=
  if_pos hrem

/-- An overflow adds half a cycle when `half` is set, else nothing: OCR comes round by itself. -/
theorem tailAdd_of_ovf {w : EncodedWidth} (hrem : w.rem = 0) (hovf : w.ovf ≠ 0) :
    tailAdd w = if w.half then 128 else 0 := by
  rw [tailAdd, if_neg (not_not.mpr hrem)]
  exact if_congr (and_iff_right hovf) rfl rfl

/-- An overflow is counted off and clears `half`. -/
theorem tailWork_of_ovf {w : EncodedWidth} (hrem : w.rem = 0) (hovf : w.ovf ≠ 0) :
    tailWork w = { ovf := w.ovf - 1, half := false, rem := 0 } := by
  rw [tailWork, if_neg (not_not.mpr hrem), if_pos hovf, hrem]

/-- An encoding with neither adds nothing. -/
theorem tailAdd_of_empty {w : EncodedWidth} (hrem : w.rem = 0) (hovf : w.ovf = 0) : tailAdd w = 0 := by
  simp [tailAdd, hrem, hovf]

/-- An encoding with neither stays, `half` included. -/
theorem tailWork_of_empty {w : EncodedWidth} (hrem : w.rem = 0) (hovf : w.ovf = 0) : tailWork w = w := by
  simp [tailWork, hrem, hovf]

/-! ### What TailStep leaves -/

/-- When TailStep has consumed the last piece, the auto-toggle is on and the Header phase follows. -/
theorem tailStep_done {g : Gen} (h : (tailStep g).work.rem = 0 ∧ (tailStep g).work.ovf = 0) :
    (tailStep g).tog = true ∧ (tailStep g).phase = .header := by
  have hdone : tailDone (tailWork g.work) = true := decide_eq_true h
  rw [tailStep_tog, tailStep_phase, hdone]
  exact ⟨rfl, rfl⟩

/-- While pieces are left, the auto-toggle is off and the phase stays. -/
theorem tailStep_not_done {g : Gen} (h : ¬ ((tailStep g).work.rem = 0 ∧ (tailStep g).work.ovf = 0)) :
    (tailStep g).tog = false ∧ (tailStep g).phase = g.phase := by
  have hdone : tailDone (tailWork g.work) = false := decide_eq_false h
  rw [tailStep_tog, tailStep_phase, hdone]
  exact ⟨rfl, rfl⟩

/-- Settles O29: the next state is TailStep after the toggle; OCR and WORK follow the three cases of the
working encoding, TOG and PHASE what is left of it. -/
theorem tailStepConsumesTheWorkingEncoding : Obligations.TailStepConsumesTheWorkingEncoding := by
  unfold Obligations.TailStepConsumesTheWorkingEncoding
  intro s hcie hphase
  refine ⟨_, exec_gCmatch_tail hcie hphase, rfl, ?_⟩
  simp only [State.respond_gen, State.setGen_gen]
  refine ⟨fun hrem => ?remainder, fun hrem hovf => ?overflow, fun hrem hovf => ?empty,
    tailStep_done, fun hleft => hphase ▸ tailStep_not_done hleft⟩
  case remainder => simp [tailAdd_of_rem hrem, tailWork_of_rem hrem]
  case overflow =>
    rw [tailStep_ocr, tailStep_work, togglePin_work, togglePin_ocr, tailAdd_of_ovf hrem hovf,
      tailWork_of_ovf hrem hovf]
    cases s.gen.work.half <;> simp
  case empty => simp [tailAdd_of_empty hrem hovf, tailWork_of_empty hrem hovf]

end Sys2Proof.Machine
end

section
/-! PROOFS. The decoder's reads (42_decoder.md R132): what D.NB answers. -/

namespace Sys2Proof.Machine

/-! ### The committed count -/

/-- A committed count within the capacity is reported as it is (42_decoder.md R132). -/
theorem Dec.count_of_le {x : Dec} (h : x.ccnt.toNat ≤ decCapacity) : x.count = x.ccnt.toNat :=
  if_neg (Nat.not_lt.mpr h)

/-- A committed count above the capacity, as before the first frame, is reported as 0
(42_decoder.md R132). -/
theorem Dec.count_of_lt {x : Dec} (h : decCapacity < x.ccnt.toNat) : x.count = 0 :=
  if_pos h

/-- D.NB of a decoder that exists changes the response alone, to the reported count. -/
theorem exec_dNb {s : State} {d : BitVec 3} {x : Dec} (hx : s.dec[d.toNat]? = some x) :
    exec (.dNb d) s = .next (s.respond x.count) :=
  calc exec (.dNb d) s
      = onDec s d (fun y => (y, y.count)) := rfl
    _ = .next (s.respond x.count) := onDec_read (fun y => y.count) hx

/-- Settles O45: D.NB is a read of the reported count, by whether CCNT is within the capacity. -/
theorem nbReportsTheCommittedCount : Obligations.NbReportsTheCommittedCount := by
  unfold Obligations.NbReportsTheCommittedCount
  intro d x s hx
  rw [exec_dNb hx, State.respond]
  by_cases h : decCapacity < x.ccnt.toNat
  · rw [Dec.count_of_lt h, if_pos h]
  · rw [Dec.count_of_le (Nat.not_lt.mp h), if_neg h]

end Sys2Proof.Machine
end

section
/-! PROOFS. The registry (43_registry.md R161): what the two polls answer and clear. -/

namespace Sys2Proof.Machine

/-- G.POLL answers with the generator's masked flags, clears those and leaves the rest of the state
(41_generator.md R102). -/
theorem exec_gPoll (m : FlagSet) (s : State) :
    exec (.gPoll m) s =
      .next ((s.setGen { s.gen with sync := s.gen.sync &&& ~~~m }).respond (s.gen.sync &&& m).toNat) :=
  rfl

/-- Settles O24: for the generator this is G.POLL's equation; for a decoder that exists, D.ISSYNC clears
what it answers, which is to clear the masked flags. -/
theorem pollReturnsAndClearsMaskedBits : Obligations.PollReturnsAndClearsMaskedBits := by
  unfold Obligations.PollReturnsAndClearsMaskedBits
  intro m s
  refine ⟨exec_gPoll m s, fun d x hx => ?_⟩
  rw [exec_dIssync hx, ← pollRest_eq_and_not_polled]
  rfl

end Sys2Proof.Machine
end

section
/-! PROOFS. The event word (30_encoding.md): `encode` and `decodeWord` are inverse to each other, each
word belongs to at most one row, and the step runs the event its oldest word decodes to. -/

namespace Sys2Proof

open Sys2Proof.Machine

/-! ### The rows of the opcode table -/

/-- Each opcode finds its own row. -/
theorem opOfCode_code (op : Op) : opOfCode op.code = some op := by
  cases op <;> rfl

/-- The reserved opcodes have no row (30_encoding.md R64). -/
theorem opOfCode_reserved {c : BitVec 5} (h : c = 0x00 ∨ c = 0x07 ∨ 0x12 ≤ c.toNat) :
    opOfCode c = none := by
  revert c
  decide

/-- A mask covers the whole opcode field. -/
theorem extract_maskWord (op : Op) : op.maskWord.extractLsb' 27 5 = BitVec.allOnes 5 := by
  cases op <;> rfl

/-- A match value carries its row's opcode. -/
theorem extract_matchWord (op : Op) : op.matchWord.extractLsb' 27 5 = op.code := by
  cases op <;> rfl

/-- A word that meets a row's mask test carries that row's opcode. -/
theorem opcode_of_mask {w : EventWord} {op : Op} (h : w &&& op.maskWord = op.matchWord) :
    w.extractLsb' 27 5 = op.code :=
  calc w.extractLsb' 27 5
      = w.extractLsb' 27 5 &&& op.maskWord.extractLsb' 27 5 := by
        rw [extract_maskWord, BitVec.and_allOnes]
    _ = (w &&& op.maskWord).extractLsb' 27 5 := BitVec.extractLsb'_and.symm
    _ = op.code := by rw [h, extract_matchWord]

/-- The fields are extracted into an event of the row they are read for. -/
theorem op_extract (op : Op) (w : EventWord) : (extract op w).op = op := by
  cases op <;> rfl

/-! ### The encoder against a row -/

/-- The word of an event passes the mask test of its row. -/
theorem encode_matches (i : Instr) : encode i &&& i.op.maskWord = i.op.matchWord := by
  cases i with
  | tUs2t us => exact Laws.EncodesRow.tUs2t us
  | gInit a p n per => exact Laws.EncodesRow.gInit a p n per
  | gSetw ch w => exact Laws.EncodesRow.gSetw ch w
  | gPoll m => exact Laws.EncodesRow.gPoll m
  | gCmatch => exact Laws.EncodesRow.gCmatch
  | gTick => exact Laws.EncodesRow.gTick
  | dAttach d sl ln => exact Laws.EncodesRow.dAttach d sl ln
  | dEdge ln ts => exact Laws.EncodesRow.dEdge ln ts
  | dNb d => exact Laws.EncodesRow.dNb d
  | dWidth d ch => exact Laws.EncodesRow.dWidth d ch
  | dPeriod d => exact Laws.EncodesRow.dPeriod d
  | dIssync d m => exact Laws.EncodesRow.dIssync d m
  | dSuspend d => exact Laws.EncodesRow.dSuspend d
  | dResume d now => exact Laws.EncodesRow.dResume d now
  | tEnc t => exact Laws.EncodesRow.tEnc t
  | tDec e => exact Laws.EncodesRow.tDec e

/-- The `pol` bit and the polarity determine each other. -/
theorem polOfBit_bitOfPol (p : Polarity) : polOfBit (bitOfPol p) = p := by
  cases p <;> rfl

/-- The polarity and the `pol` bit determine each other. -/
theorem bitOfPol_polOfBit (b : Bool) : bitOfPol (polOfBit b) = b := by
  cases b <;> rfl

/-- Bit `k` of a field placed at `lo` is the field's bit `k - lo`. -/
theorem getLsbD_place {n : Nat} (v : BitVec n) (lo k : Nat) :
    (place v lo).getLsbD k = (decide (k < 32) && decide (lo ≤ k) && v.getLsbD (k - lo)) := by
  rw [place, BitVec.getLsbD_shiftLeft, BitVec.getLsbD_setWidth]
  by_cases hk : k < 32
  · have hsub : k - lo < 32 := by omega
    simp only [hk, hsub, decide_true, Bool.true_and, ← decide_not, Nat.not_lt]
  · simp [hk]

/-- A field reads back from where it was placed. -/
theorem extract_place_same {n lo : Nat} (v : BitVec n) (h : lo + n ≤ 32) :
    (place v lo).extractLsb' lo n = v := by
  ext k hk
  have hlt : lo + k < 32 := by omega
  simp only [BitVec.getElem_extractLsb', getLsbD_place, hlt, Nat.le_add_right, decide_true,
    Bool.true_and, Nat.add_sub_cancel_left]
  exact BitVec.getLsbD_eq_getElem hk

/-- A field placed below or above a range reads as zero there. -/
theorem extract_place_disjoint {m n lo lo' : Nat} (v : BitVec m) (h : lo' + m ≤ lo ∨ lo + n ≤ lo') :
    (place v lo').extractLsb' lo n = 0#n := by
  ext k hk
  simp only [BitVec.getElem_extractLsb', getLsbD_place, BitVec.getElem_zero]
  rcases h with h | h
  · rw [BitVec.getLsbD_of_ge v _ (by omega), Bool.and_false]
  · rw [decide_eq_false (p := lo' ≤ lo + k) (by omega), Bool.and_false, Bool.false_and]

/-- Placing the field read at `lo` keeps the bits of the word that the field covers. -/
theorem place_extract (w : EventWord) (lo n : Nat) :
    place (w.extractLsb' lo n) lo = w &&& place (BitVec.allOnes n) lo := by
  ext k hk
  simp only [← BitVec.getLsbD_eq_getElem, BitVec.getLsbD_and, getLsbD_place, BitVec.getLsbD_extractLsb',
    BitVec.getLsbD_allOnes]
  by_cases hlo : lo ≤ k
  · rw [Nat.add_sub_cancel' hlo]
    simp [hk, hlo, Bool.and_comm]
  · simp [hlo]

/-- One bit of a word is its field of width 1. -/
theorem bit1_getLsbD (w : EventWord) (k : Nat) : bit1 (w.getLsbD k) = w.extractLsb' k 1 := by
  ext j hj
  obtain rfl : j = 0 := by omega
  simp [bit1]

/-- A bit reads as the one-bit field that holds it. -/
theorem getLsbD_of_extract {w : EventWord} {k : Nat} {b : Bool} (h : w.extractLsb' k 1 = bit1 b) :
    w.getLsbD k = b := by
  rw [← bit1_getLsbD] at h
  exact BitVec.ofBool_eq_iff_eq.mp h

/-- Reading the fields of an event's word gives the event back: each field is read where it was placed,
and the others lie beside it. -/
theorem extract_encode (i : Instr) : extract i.op (encode i) = i := by
  cases i with
  | gInit a p n per =>
    have ha : (encode (.gInit a p n per)).getLsbD 21 = a := getLsbD_of_extract (by
      simp [encode, BitVec.extractLsb'_or, extract_place_same, extract_place_disjoint])
    have hp : (encode (.gInit a p n per)).getLsbD 20 = bitOfPol p := getLsbD_of_extract (by
      simp [encode, BitVec.extractLsb'_or, extract_place_same, extract_place_disjoint])
    simp only [extract, Instr.op, ha, hp, polOfBit_bitOfPol]
    simp [encode, BitVec.extractLsb'_or, extract_place_same, extract_place_disjoint]
  | dAttach d sl ln =>
    have hsl : (encode (.dAttach d sl ln)).getLsbD 8 = sl := getLsbD_of_extract (by
      simp [encode, BitVec.extractLsb'_or, extract_place_same, extract_place_disjoint])
    simp only [extract, Instr.op, hsl]
    simp [encode, BitVec.extractLsb'_or, extract_place_same, extract_place_disjoint]
  | _ =>
    simp [extract, encode, Instr.op, BitVec.extractLsb'_or, extract_place_same, extract_place_disjoint]

/-- The bits that the fields of a row cover (30_encoding.md R61). -/
def Op.fieldMask : Op → EventWord
  | .tUs2t => place (BitVec.allOnes 16) 0
  | .gInit => place (BitVec.allOnes 1) 21 ||| (place (BitVec.allOnes 1) 20 |||
      (place (BitVec.allOnes 4) 16 ||| place (BitVec.allOnes 16) 0))
  | .gSetw => place (BitVec.allOnes 4) 16 ||| place (BitVec.allOnes 16) 0
  | .gPoll => place (BitVec.allOnes 8) 0
  | .gCmatch => 0#32
  | .gTick => 0#32
  | .dAttach => place (BitVec.allOnes 3) 24 |||
      (place (BitVec.allOnes 1) 8 ||| place (BitVec.allOnes 8) 0)
  | .dEdge => place (BitVec.allOnes 8) 16 ||| place (BitVec.allOnes 16) 0
  | .dNb => place (BitVec.allOnes 3) 24
  | .dWidth => place (BitVec.allOnes 3) 24 ||| place (BitVec.allOnes 4) 0
  | .dPeriod => place (BitVec.allOnes 3) 24
  | .dIssync => place (BitVec.allOnes 3) 24 ||| place (BitVec.allOnes 8) 0
  | .dSuspend => place (BitVec.allOnes 3) 24
  | .dResume => place (BitVec.allOnes 3) 24 ||| place (BitVec.allOnes 16) 0
  | .tEnc => place (BitVec.allOnes 15) 0
  | .tDec => place (BitVec.allOnes 16) 0

/-- A row's fields cover exactly the bits outside its mask. -/
theorem fieldMask_eq (op : Op) : op.fieldMask = ~~~op.maskWord := by
  cases op <;> decide

/-- A row's match value is its opcode, placed. -/
theorem matchWord_eq (op : Op) : op.matchWord = place op.code 27 := by
  cases op <;> decide

/-- The word of the event with the fields of `w` is the row's match value with the bits of `w` outside
the row's mask. -/
theorem encode_extract (op : Op) (w : EventWord) :
    encode (extract op w) = op.matchWord ||| (w &&& ~~~op.maskWord) := by
  rw [matchWord_eq, ← fieldMask_eq]
  cases op
  all_goals
    simp only [extract, encode, bitOfPol_polOfBit, bit1_getLsbD, place_extract, Op.fieldMask, Op.code,
      BitVec.ofNat_eq_ofNat, BitVec.or_assoc, BitVec.and_or_distrib_left, BitVec.and_zero, BitVec.or_zero]

/-! ### The decoding procedure -/

/-- What `decodeWord` accepts: a word that meets the mask test of a row, whose event is well formed. -/
theorem decodeWord_ok {ndec : Nat} {w : EventWord} {i : Instr} (h : decodeWord ndec w = .ok i) :
    ∃ op : Op, w &&& op.maskWord = op.matchWord ∧ i = extract op w ∧ i.wf ndec = true := by
  unfold decodeWord at h
  split at h
  · cases h
  · rename_i op _
    split at h
    · rename_i hmask
      split at h
      · rename_i hwf
        cases h
        exact ⟨op, hmask, rfl, hwf⟩
      · cases h
    · cases h

/-- A word that meets a row's mask test is decoded into that row's fields, if the decoder they name
is present. -/
theorem decodeWord_of_mask (ndec : Nat) {w : EventWord} {op : Op} (h : w &&& op.maskWord = op.matchWord) :
    decodeWord ndec w =
      if (extract op w).wf ndec then .ok (extract op w) else .error .absentInstance := by
  simp only [decodeWord, opcode_of_mask h, opOfCode_code, if_pos h]

/-- The word of an event is decoded into it, if the decoder it names is present. -/
theorem decodeWord_encode (ndec : Nat) (i : Instr) :
    decodeWord ndec (encode i) = if i.wf ndec then .ok i else .error .absentInstance := by
  rw [decodeWord_of_mask ndec (encode_matches i), extract_encode]

/-- A word that is the word of a well-formed event is decoded into it. -/
theorem decodeWord_of_encode {ndec : Nat} {w : EventWord} {i : Instr} (hw : encode i = w)
    (hwf : i.wf ndec = true) : decodeWord ndec w = .ok i := by
  rw [← hw, decodeWord_encode, if_pos hwf]

/-- Settles O1: the word passes its row's mask test and its fields read back as the event. -/
theorem decodeOfEncode : Obligations.DecodeOfEncode := by
  unfold Obligations.DecodeOfEncode
  intro ndec i hwf
  exact decodeWord_of_encode rfl hwf

/-- A word that meets a row's mask test is its match value with its own bits outside the mask. -/
theorem eq_of_mask {w : EventWord} {op : Op} (h : w &&& op.maskWord = op.matchWord) :
    op.matchWord ||| (w &&& ~~~op.maskWord) = w := by
  rw [← h, ← BitVec.and_or_distrib_left, BitVec.or_not_self, BitVec.and_allOnes]

/-- Settles O2: the bits under the mask are the row's, and the fields carry the others. -/
theorem encodeOfDecode : Obligations.EncodeOfDecode := by
  unfold Obligations.EncodeOfDecode
  intro ndec w i h
  obtain ⟨op, hmask, rfl, hwf⟩ := decodeWord_ok h
  exact ⟨(encode_extract op w).trans (eq_of_mask hmask), hwf⟩

/-- With eight decoders every event is well formed. -/
theorem wf_eight (i : Instr) : i.wf 8 = true := by
  unfold Instr.wf
  split
  · rfl
  · rename_i d _
    exact decide_eq_true d.isLt

/-- Settles O3: with eight decoders the mask test alone decides, and an event's row is the row whose
fields it was read from. -/
theorem wordIsRowExactlyWhenMaskMatches : Obligations.WordIsRowExactlyWhenMaskMatches := by
  unfold Obligations.WordIsRowExactlyWhenMaskMatches
  refine fun w op => ⟨fun hmask => ⟨extract op w, ?_, op_extract op w⟩, ?_⟩
  · rw [decodeWord_of_mask 8 hmask, if_pos (wf_eight _)]
  · rintro ⟨i, hdecode, rfl⟩
    obtain ⟨op, hmask, rfl, -⟩ := decodeWord_ok hdecode
    rw [op_extract]
    exact hmask

/-- Settles O5: each word is the word of its row's event. -/
theorem syntaxTableWordsDecode : Obligations.SyntaxTableWordsDecode := by
  unfold Obligations.SyntaxTableWordsDecode
  refine ⟨?_, ?_, ?_, ?_, ?_, ?_, ?_, ?_, ?_, ?_, ?_, ?_, ?_, ?_, ?_, ?_⟩
  all_goals exact decodeWord_of_encode (by decide) (by decide)

end Sys2Proof

namespace Sys2Proof.Machine

/-! ### The step -/

/-- With no event left the step is refused. -/
theorem step_nil {s : State} (h : s.events = []) : step s = .refused .noEvent := by
  simp only [step, takeEvent, h]

/-- An oldest word that is reserved is refused with its reason. -/
theorem step_of_decode_error {s : State} {w : EventWord} {rest : List EventWord} {e : DecodeError}
    (hev : s.events = w :: rest) (h : decodeWord s.cfg.ndec w = .error e) :
    step s = .refused (.reservedWord e) := by
  simp only [step, takeEvent, hev, h]

/-- An oldest word that decodes is run on the state without it. -/
theorem step_of_decode_ok {s : State} {w : EventWord} {rest : List EventWord} {i : Instr}
    (hev : s.events = w :: rest) (h : decodeWord s.cfg.ndec w = .ok i) :
    step s = exec i { s with events := rest } := by
  simp only [step, takeEvent, hev, h]

/-- What a step can do: be refused for want of an event or for a reserved word, or run a well-formed
event on the state without its word. -/
theorem step_cases (s : State) :
    (∃ r, step s = .refused r) ∨
      ∃ (i : Instr) (rest : List EventWord), i.wf s.cfg.ndec = true ∧
        step s = exec i { s with events := rest } := by
  rcases hev : s.events with _ | ⟨w, rest⟩
  · exact .inl ⟨_, step_nil hev⟩
  · rcases hw : decodeWord s.cfg.ndec w with e | i
    · exact .inl ⟨_, step_of_decode_error hev hw⟩
    · obtain ⟨-, -, -, hwf⟩ := decodeWord_ok hw
      exact .inr ⟨i, rest, hwf, step_of_decode_ok hev hw⟩

/-- An event that names a decoder at or above NDEC is not well formed. -/
theorem not_wf_of_absent {i : Instr} {d : BitVec 3} {ndec : Nat} (hd : i.inst? = some d)
    (h : ndec ≤ d.toNat) : i.wf ndec ≠ true := by
  simp [Instr.wf, hd, h]

/-- Settles O4: the decoding procedure gives each reason, and the step passes it on. -/
theorem reservedWordsAreRefused : Obligations.ReservedWordsAreRefused := by
  unfold Obligations.ReservedWordsAreRefused
  refine ⟨fun s => step_nil, fun s w rest hev => ⟨fun hcode => ?_, fun op hcode hmask => ?_,
    fun i d hi hd habsent => ?_⟩⟩
  · refine step_of_decode_error hev ?_
    simp only [decodeWord, opOfCode_reserved hcode]
  · refine step_of_decode_error hev ?_
    simp only [decodeWord, hcode, opOfCode_code, if_neg hmask]
  · refine step_of_decode_error hev ?_
    rw [← hi, decodeWord_encode, if_neg (not_wf_of_absent hd habsent)]

/-- Settles O6: the step is `exec` of the decoded event on the state without its word. -/
theorem stepRunsTheDecodedEvent : Obligations.StepRunsTheDecodedEvent := by
  unfold Obligations.StepRunsTheDecodedEvent
  intro s w rest i hev hdecode
  exact step_of_decode_ok hev hdecode

end Sys2Proof.Machine
end

section
/-! PROOFS. The tick arithmetic (40_tickclock_arith.md): rounding, the overflow decomposition and its two
inverses, the packing, and what T.US2T, T.ENC and T.DEC answer. -/

namespace Sys2Proof.Machine

/-! ### Conversion -/

/-- The nearest tick count, a half going up: the quotient of the doubled numerator, by the bounds of a
quotient (40_tickclock_arith.md R80). -/
theorem us2ticks_bounds (c : Config) (us : Nat) (h : 0 < c.tickNum) :
    2 * c.tickNum * us2ticks c us ≤ 2 * calibrate c us * c.tickDen + c.tickNum ∧
      2 * calibrate c us * c.tickDen + c.tickNum < 2 * c.tickNum * (us2ticks c us + 1) := by
  have hpos : 0 < 2 * c.tickNum := by omega
  exact ⟨Nat.mul_div_le _ _, Nat.lt_mul_div_succ _ hpos⟩

/-- Settles O9: the response is `us2ticks`, which the bounds of a quotient characterise. -/
theorem usToTicksRoundsToNearestHalfUp : Obligations.UsToTicksRoundsToNearestHalfUp := by
  unfold Obligations.UsToTicksRoundsToNearestHalfUp
  intro us s h
  exact ⟨us2ticks s.cfg us.toNat, rfl, us2ticks_bounds s.cfg us.toNat h⟩

/-! ### The overflow decomposition -/

/-- A remainder in the lower guard borrows half a block (40_tickclock_arith.md R84). -/
theorem encodeTicks_of_low {t : Nat} (h : t % 256 < 16) :
    encodeTicks t = ⟨BitVec.ofNat 7 (t / 256), true, BitVec.ofNat 8 (t % 256 + 128)⟩ :=
  if_pos h

/-- A remainder in the upper guard lends half a block to the next (40_tickclock_arith.md R84). -/
theorem encodeTicks_of_high {t : Nat} (h : 240 < t % 256) :
    encodeTicks t = ⟨BitVec.ofNat 7 (t / 256 + 1), true, BitVec.ofNat 8 (t % 256 - 128)⟩ :=
  (if_neg (by simp only [guardTicks]; omega)).trans (if_pos ⟨rfl, h⟩)

/-- A remainder between the guards stays (40_tickclock_arith.md R84). -/
theorem encodeTicks_of_mid {t : Nat} (hlow : 16 ≤ t % 256) (hhigh : t % 256 ≤ 240) :
    encodeTicks t = ⟨BitVec.ofNat 7 (t / 256), false, BitVec.ofNat 8 (t % 256)⟩ :=
  (if_neg (Nat.not_lt.mpr hlow)).trans (if_neg fun h => Nat.not_lt.mpr hhigh h.2)

/-- The three cases of `encodeTicks` over its domain, in numbers. -/
theorem encodeTicks_cases {t : Nat} (h : t ≤ 32752) :
    (t % 256 < 16 ∧ (encodeTicks t).ovf.toNat = t / 256 ∧ (encodeTicks t).half = true ∧
        (encodeTicks t).rem.toNat = t % 256 + 128) ∨
      (240 < t % 256 ∧ (encodeTicks t).ovf.toNat = t / 256 + 1 ∧ (encodeTicks t).half = true ∧
        (encodeTicks t).rem.toNat = t % 256 - 128) ∨
      (16 ≤ t % 256 ∧ t % 256 ≤ 240 ∧ (encodeTicks t).ovf.toNat = t / 256 ∧
        (encodeTicks t).half = false ∧ (encodeTicks t).rem.toNat = t % 256) := by
  rcases Nat.lt_or_ge (t % 256) 16 with hlow | hlow
  · refine .inl ⟨hlow, ?_⟩
    rw [encodeTicks_of_low hlow]
    exact ⟨Nat.mod_eq_of_lt (by omega), rfl, Nat.mod_eq_of_lt (by omega)⟩
  rcases Nat.lt_or_ge 240 (t % 256) with hhigh | hhigh
  · refine .inr (.inl ⟨hhigh, ?_⟩)
    rw [encodeTicks_of_high hhigh]
    exact ⟨Nat.mod_eq_of_lt (by omega), rfl, Nat.mod_eq_of_lt (by omega)⟩
  · refine .inr (.inr ⟨hlow, hhigh, ?_⟩)
    rw [encodeTicks_of_mid hlow hhigh]
    exact ⟨Nat.mod_eq_of_lt (by omega), rfl, Nat.mod_eq_of_lt (by omega)⟩

/-- Settles O12: each case gives back the 128 ticks it borrowed. -/
theorem decodedTicksInvertsEncode : Obligations.DecodedTicksInvertsEncode := by
  unfold Obligations.DecodedTicksInvertsEncode
  intro t h
  obtain ⟨_, hovf, hhalf, hrem⟩ | ⟨_, hovf, hhalf, hrem⟩ | ⟨_, _, hovf, hhalf, hrem⟩ :=
    encodeTicks_cases h
  all_goals
    simp only [decodedTicks, hovf, hhalf, hrem, Bool.false_eq_true, if_true, if_false]
    omega

/-- Settles O13: 0..15 is raised to 128..143, 241..255 lowered to 113..127. -/
theorem encodeKeepsTheGuard : Obligations.EncodeKeepsTheGuard := by
  unfold Obligations.EncodeKeepsTheGuard
  intro t h
  obtain ⟨_, _, _, hrem⟩ | ⟨_, _, _, hrem⟩ | ⟨_, _, _, _, hrem⟩ := encodeTicks_cases h
  all_goals omega

/-- An overflow count is zero exactly as a number. -/
theorem ovf_eq_zero_iff (e : EncodedWidth) : e.ovf = 0 ↔ e.ovf.toNat = 0 := by
  rw [← BitVec.toNat_inj]
  rfl

/-- A remainder is zero exactly as a number. -/
theorem rem_eq_zero_iff (e : EncodedWidth) : e.rem = 0 ↔ e.rem.toNat = 0 := by
  rw [← BitVec.toNat_inj]
  rfl

/-- Settles O14: the handler honours the borrow only with a block left, so the widths below 16, which
have none, come out 128 ticks long. -/
theorem handlerTicksOfEncode : Obligations.HandlerTicksOfEncode := by
  unfold Obligations.HandlerTicksOfEncode
  intro t h
  obtain ⟨_, hovf, hhalf, hrem⟩ | ⟨_, hovf, hhalf, hrem⟩ | ⟨_, _, hovf, hhalf, hrem⟩ :=
    encodeTicks_cases h
  all_goals
    simp only [segTicks, ovf_eq_zero_iff, rem_eq_zero_iff, hovf, hhalf, hrem]
    grind

/-! ### The packing -/

/-- The packed value as a number: `half` at bit 15, `ovf` from bit 8, `rem` below (10_state.md R11). -/
theorem pack_toNat (e : EncodedWidth) :
    (pack e).toNat = 32768 * e.half.toNat + 256 * e.ovf.toNat + e.rem.toNat := by
  have hovf := e.ovf.isLt
  have hrem := e.rem.isLt
  rw [pack, BitVec.toNat_append, BitVec.toNat_append, BitVec.toNat_ofBool,
    ← Nat.shiftLeft_add_eq_or_of_lt hovf, ← Nat.shiftLeft_add_eq_or_of_lt hrem]
  simp only [Nat.shiftLeft_eq]
  omega

/-- The fields of a packed value as numbers. -/
theorem unpack_toNat (v : BitVec 16) :
    (unpack v).ovf.toNat = v.toNat / 256 % 128 ∧ (unpack v).half.toNat = v.toNat / 32768 ∧
      (unpack v).rem.toNat = v.toNat % 256 := by
  have hv := v.isLt
  refine ⟨?_, ?_, ?_⟩
  · simp [unpack, Nat.shiftRight_eq_div_pow]
  · simp only [unpack, BitVec.getLsbD, Nat.toNat_testBit]
    omega
  · simp [unpack]

/-- Encodings with equal numbers are equal. -/
theorem EncodedWidth.eq_of_toNat {e f : EncodedWidth} (hovf : e.ovf.toNat = f.ovf.toNat)
    (hhalf : e.half.toNat = f.half.toNat) (hrem : e.rem.toNat = f.rem.toNat) : e = f := by
  obtain ⟨eo, eh, er⟩ := e
  obtain ⟨fo, fh, fr⟩ := f
  obtain rfl := BitVec.eq_of_toNat_eq hovf
  obtain rfl := BitVec.eq_of_toNat_eq hrem
  obtain rfl : eh = fh := BitVec.ofBool_eq_iff_eq.mp (BitVec.eq_of_toNat_eq (by simpa using hhalf))
  rfl

/-- Settles O15: in numbers, packing places the fields where unpacking reads them. -/
theorem packingIsABijection : Obligations.PackingIsABijection := by
  unfold Obligations.PackingIsABijection
  refine ⟨fun e => ?_, fun v => ?_⟩
  · obtain ⟨hovf, hhalf, hrem⟩ := unpack_toNat (pack e)
    have hpack := pack_toNat e
    have ho := e.ovf.isLt
    have hh := e.half.toNat_le
    have hr := e.rem.isLt
    exact EncodedWidth.eq_of_toNat (by omega) (by omega) (by omega)
  · obtain ⟨hovf, hhalf, hrem⟩ := unpack_toNat v
    have hpack := pack_toNat (unpack v)
    have hv := v.isLt
    exact BitVec.eq_of_toNat_eq (by omega)

/-! ### T.ENC and T.DEC -/

/-- Inside the encoder's domain no value is drawn. -/
theorem encodeOrDraw_of_le {t : Nat} (n : Nat) (h : t ≤ 32752) :
    encodeOrDraw t n = (encodeTicks t, n) :=
  if_pos h

/-- Above the encoder's domain one value is drawn. -/
theorem encodeOrDraw_of_lt {t : Nat} (n : Nat) (h : 32752 < t) :
    encodeOrDraw t n = (drawn n, n + 1) :=
  if_neg (Nat.not_le.mpr h)

/-- T.ENC answers the packed encoding and counts its draws (40_tickclock_arith.md R84, R89). -/
theorem exec_tEnc (ticks : BitVec 15) (s : State) :
    exec (.tEnc ticks) s = .next ((s.setDraws (encodeOrDraw ticks.toNat s.draws).2).respond
      (pack (encodeOrDraw ticks.toNat s.draws).1).toNat) :=
  rfl

/-- The packed encoding of a tick count in the domain, by its three cases. -/
theorem pack_encodeTicks_toNat {t : Nat} (h : t ≤ 32752) :
    (pack (encodeTicks t)).toNat =
      if t % 256 < 16 then 32768 + 256 * (t / 256) + (t % 256 + 128)
      else if 240 < t % 256 then 32768 + 256 * (t / 256 + 1) + (t % 256 - 128)
      else 256 * (t / 256) + t % 256 := by
  rw [pack_toNat]
  obtain ⟨hlow, hovf, hhalf, hrem⟩ | ⟨hhigh, hovf, hhalf, hrem⟩ | ⟨hlow, hhigh, hovf, hhalf, hrem⟩ :=
    encodeTicks_cases h
  · rw [if_pos hlow, hovf, hhalf, hrem, Bool.toNat_true]
  · rw [if_neg (by omega), if_pos hhigh, hovf, hhalf, hrem, Bool.toNat_true]
  · rw [if_neg (by omega), if_neg (by omega), hovf, hhalf, hrem, Bool.toNat_false]
    omega

/-- Settles O10: in the domain the response is the packed encoding, above it a drawn value, packed. -/
theorem encPacksTheDecomposition : Obligations.EncPacksTheDecomposition := by
  unfold Obligations.EncPacksTheDecomposition
  refine fun ticks s => ⟨fun h => ?_, fun h => ⟨pack (drawn s.draws), ?_⟩⟩
  · rw [exec_tEnc, encodeOrDraw_of_le _ h, pack_encodeTicks_toNat h]
    rfl
  · rw [exec_tEnc, encodeOrDraw_of_lt _ h]
    rfl

/-- `decodedTicks` with `half` as a number. -/
theorem decodedTicks_eq (e : EncodedWidth) :
    decodedTicks e = 256 * (e.ovf.toNat : Int) + e.rem.toNat - 128 * (e.half.toNat : Int) := by
  cases hh : e.half <;> simp [decodedTicks, hh]

/-- Settles O11: `decodedTicks` of the value's three fields. -/
theorem decUndoesTheBorrow : Obligations.DecUndoesTheBorrow := by
  unfold Obligations.DecUndoesTheBorrow
  intro ew s
  obtain ⟨hovf, hhalf, hrem⟩ := unpack_toNat ew
  rw [← hovf, ← hhalf, ← hrem, ← decodedTicks_eq]
  rfl

end Sys2Proof.Machine
end

section
/-! PROOFS. What an event can do, said once: to the generator (`GenStep`), to each decoder
(`Dec.after`) and to the rest of the state. -/

namespace Sys2Proof.Machine

/-! ### Storing the filler -/

/-- The filler stands in slot 0 of the pending side. -/
def withFiller (g : Gen) (e : EncodedWidth) : Gen := { g with next := writeSlot g.next 0 e }

/-- `e` is what is stored for the filler `f` of `g`: its encoding, or a drawn value where `f` does not
fit; `n'` counts the draws (41_generator.md R101). -/
def FillerStored (c : Config) (g : Gen) (n : Nat) (f : Int) (e : EncodedWidth) (n' : Nat) : Prop :=
  fillerTicks c g = .ok f ∧
    ((fillerFits f = true ∧ e = encodeTicks f.toNat ∧ n' = n) ∨
      (fillerFits f = false ∧ e = drawn n ∧ n' = n + 1))

/-- The encoder's domain as numbers. -/
theorem fillerFits_iff {f : Int} : fillerFits f = true ↔ 0 ≤ f ∧ f ≤ 32752 :=
  decide_eq_true_iff

/-- A filler does not fit when it is negative or too large. -/
theorem fillerFits_eq_false_iff {f : Int} : fillerFits f = false ↔ f < 0 ∨ 32752 < f := by
  rw [fillerFits, decide_eq_false_iff_not]
  simp only [encodeMax]
  omega

/-- `storeFiller` completes exactly with a stored filler. -/
theorem storeFiller_eq_ok_iff {c : Config} {g g' : Gen} {n n' : Nat} :
    storeFiller c g n = .ok (g', n') ↔ ∃ f e, FillerStored c g n f e n' ∧ g' = withFiller g e := by
  constructor
  · intro h
    obtain ⟨f, e, hf, hg, hcase⟩ := storeFiller_ok h
    exact ⟨f, e, ⟨hf, hcase⟩, hg⟩
  · rintro ⟨f, e, ⟨hf, ⟨hfit, rfl, rfl⟩ | ⟨hfit, rfl, rfl⟩⟩, rfl⟩
    all_goals simp [storeFiller, fillerValue, hf, hfit, raise, withFiller]

/-- A filler can be stored when every channel slot holds a value. -/
theorem exists_fillerStored {c : Config} {g : Gen} (n : Nat)
    (h : ∀ i, 1 ≤ i → i ≤ g.nch.toNat → ∃ e, g.next[i]? = some (some e)) :
    ∃ f e n', FillerStored c g n f e n' := by
  obtain ⟨⟨g', n'⟩, hstore⟩ := storeFiller_exists (c := c) (n := n) h
  obtain ⟨f, e, hstored, -⟩ := storeFiller_eq_ok_iff.mp hstore
  exact ⟨f, e, n', hstored⟩

/-- Storing the filler leaves the filler as it was. -/
theorem fillerTicks_withFiller (c : Config) (g : Gen) (e : EncodedWidth) :
    fillerTicks c (withFiller g e) = fillerTicks c g :=
  fillerTicks_slot0 c g e

/-- Slot 0 holds what was stored. -/
theorem withFiller_slot0 (g : Gen) (e : EncodedWidth) : (withFiller g e).next[0]? = some (some e) := by
  rw [withFiller, writeSlot_get, if_pos ⟨rfl, by decide⟩]

/-- Storing the filler keeps the other slots. -/
theorem withFiller_slot_of_ne (g : Gen) (e : EncodedWidth) {k : Nat} (hk : k ≠ 0) :
    (withFiller g e).next[k]? = g.next[k]? := by
  rw [withFiller, writeSlot_get, if_neg fun h => hk h.1]

/-- Storing the filler does not take draws back. -/
theorem FillerStored.draws_le {c : Config} {g : Gen} {n n' : Nat} {f : Int} {e : EncodedWidth}
    (h : FillerStored c g n f e n') : n ≤ n' := by
  obtain ⟨-, ⟨-, -, rfl⟩ | ⟨-, -, rfl⟩⟩ := h
  · exact Nat.le_refl _
  · exact Nat.le_succ n

/-- The draw of one channel's entry is never taken back. -/
theorem le_encodeOrDraw_draws (t n : Nat) : n ≤ (encodeOrDraw t n).2 := by
  unfold encodeOrDraw
  split
  · exact Nat.le_refl n
  · exact Nat.le_succ n

/-- The draws of the neutral channels are never taken back. -/
theorem le_neutralDraws (c : Config) (n m : Nat) : n ≤ neutralDraws c n m := by
  unfold neutralDraws
  split
  · exact Nat.le_refl n
  · exact Nat.le_add_right n m

/-! ### G.INIT and G.SETW -/

/-- The state after a G.INIT with a table that stored `e` as the filler. -/
def initState (s : State) (pol : Polarity) (nch : BitVec 4) (per : Micros) (e : EncodedWidth) (n' : Nat) :
    State :=
  ((s.setGen (initEnable (withFiller (initTable s.cfg s.gen s.draws pol nch per) e))).setDraws n').respond 1

/-- What G.INIT can do (41_generator.md R100): fail for want of a table, or configure, store and enable. -/
theorem exec_gInit_next {a : Bool} {pol : Polarity} {nch : BitVec 4} {per : Micros} {s t : State}
    (h : exec (.gInit a pol nch per) s = .next t) :
    nch ≠ 0 ∧ ((a = false ∧ t = (s.setGen (initFailed s.gen)).respond 0) ∨
      (a = true ∧ ∃ f e n', FillerStored s.cfg (initTable s.cfg s.gen s.draws pol nch per)
        (neutralDraws s.cfg s.draws (clampChannels nch).toNat) f e n' ∧
        t = initState s pol nch per e n')) := by
  simp only [exec, execGInit, raise] at h
  split at h
  · cases h
  · rename_i hnch
    refine ⟨hnch, ?_⟩
    split at h
    · rename_i ha
      split at h
      · cases h
      · rename_i g n' hstore
        cases h
        obtain ⟨f, e, hstored, rfl⟩ := storeFiller_eq_ok_iff.mp hstore
        exact .inr ⟨ha, f, e, n', hstored, rfl⟩
    · rename_i ha
      cases h
      exact .inl ⟨by simpa using ha, rfl⟩

/-- G.INIT with a table completes with whatever filler is stored. -/
theorem exec_gInit_of_stored {pol : Polarity} {nch : BitVec 4} {per : Micros} {s : State} {f : Int}
    {e : EncodedWidth} {n' : Nat} (hnch : nch ≠ 0)
    (h : FillerStored s.cfg (initTable s.cfg s.gen s.draws pol nch per)
      (neutralDraws s.cfg s.draws (clampChannels nch).toNat) f e n') :
    exec (.gInit true pol nch per) s = .next (initState s pol nch per e n') := by
  simp only [exec, execGInit, if_neg hnch, if_true, storeFiller_eq_ok_iff.mpr ⟨f, e, h, rfl⟩]
  rfl

/-- G.INIT without a table disables the engine (41_generator.md R100). -/
theorem exec_gInit_false {nch : BitVec 4} (pol : Polarity) (per : Micros) (s : State) (hnch : nch ≠ 0) :
    exec (.gInit false pol nch per) s = .next ((s.setGen (initFailed s.gen)).respond 0) := by
  simp only [exec, execGInit, raise, if_neg hnch, Bool.false_eq_true, if_false]

/-- G.INIT with a channel count of 0 is refused. -/
theorem exec_gInit_zero (a : Bool) (pol : Polarity) (per : Micros) (s : State) :
    exec (.gInit a pol 0 per) s = .refused .channelCountZero :=
  rfl

/-- The pending channels after the neutral widths all hold values. -/
theorem initTable_channels (c : Config) (g : Gen) (n : Nat) (pol : Polarity) (nch : BitVec 4) (per : Micros)
    {k : Nat} (h1 : 1 ≤ k) (hk : k ≤ (clampChannels nch).toNat) :
    (initTable c g n pol nch per).next[k]? = some (some (neutralEntry c n k)) := by
  have hclamp := clampChannels_toNat nch
  rw [initTable, neutralTable_get, if_pos ⟨h1, hk, by simp only [maxCh, tableSlots] at *; omega⟩]

/-- The slots beyond the channel count are kept. -/
theorem initTable_above (c : Config) (g : Gen) (n : Nat) (pol : Polarity) (nch : BitVec 4) (per : Micros)
    {k : Nat} (hk : (clampChannels nch).toNat < k) :
    (initTable c g n pol nch per).next[k]? = g.next[k]? := by
  rw [initTable, neutralTable_get, if_neg fun h => Nat.not_le.mpr hk h.2.1]

/-- G.INIT with a channel count and a table always completes. -/
theorem exec_gInit_completes {nch : BitVec 4} (pol : Polarity) (per : Micros) (s : State) (hnch : nch ≠ 0) :
    ∃ f e n', FillerStored s.cfg (initTable s.cfg s.gen s.draws pol nch per)
        (neutralDraws s.cfg s.draws (clampChannels nch).toNat) f e n' ∧
      exec (.gInit true pol nch per) s = .next (initState s pol nch per e n') := by
  obtain ⟨f, e, n', hstored⟩ := exists_fillerStored (c := s.cfg)
    (g := initTable s.cfg s.gen s.draws pol nch per)
    (neutralDraws s.cfg s.draws (clampChannels nch).toNat)
    fun k h1 hk => ⟨_, initTable_channels s.cfg s.gen s.draws pol nch per h1 hk⟩
  exact ⟨f, e, n', hstored, exec_gInit_of_stored hnch hstored⟩

/-- The state after a G.SETW that stored a channel, and `e` as the filler. -/
def setwState (s : State) (ch : BitVec 4) (width : Micros) (e : EncodedWidth) (n' : Nat) : State :=
  ((s.setGen (withFiller (setChannel s.cfg s.gen s.draws ch width) e)).setDraws n').respond 0

/-- What G.SETW can do (41_generator.md R101): nothing, or store the channel and the filler. -/
theorem exec_gSetw_next {ch : BitVec 4} {width : Micros} {s t : State}
    (h : exec (.gSetw ch width) s = .next t) :
    ((s.gen.en = false ∨ validChannel s.gen ch = false) ∧ t = s.respond 0) ∨
      (s.gen.en = true ∧ validChannel s.gen ch = true ∧ ∃ f e n',
        FillerStored s.cfg (setChannel s.cfg s.gen s.draws ch width)
          (encodeOrDraw (widthTicks s.cfg width.toNat) s.draws).2 f e n' ∧
        t = setwState s ch width e n') := by
  simp only [exec, execGSetw, raise] at h
  split at h
  · rename_i hen
    split at h
    · rename_i hvalid
      split at h
      · cases h
      · rename_i g n' hstore
        cases h
        obtain ⟨f, e, hstored, rfl⟩ := storeFiller_eq_ok_iff.mp hstore
        exact .inr ⟨hen, hvalid, f, e, n', hstored, rfl⟩
    · rename_i hvalid
      cases h
      exact .inl ⟨.inr (by simpa using hvalid), rfl⟩
  · rename_i hen
    cases h
    exact .inl ⟨.inl (by simpa using hen), rfl⟩

/-- With a valid channel of an enabled engine G.SETW completes with whatever filler is stored. -/
theorem exec_gSetw_of_stored {ch : BitVec 4} {width : Micros} {s : State} {f : Int} {e : EncodedWidth}
    {n' : Nat} (hen : s.gen.en = true) (hvalid : validChannel s.gen ch = true)
    (h : FillerStored s.cfg (setChannel s.cfg s.gen s.draws ch width)
      (encodeOrDraw (widthTicks s.cfg width.toNat) s.draws).2 f e n') :
    exec (.gSetw ch width) s = .next (setwState s ch width e n') := by
  simp only [exec, execGSetw, if_pos hen, if_pos hvalid, storeFiller_eq_ok_iff.mpr ⟨f, e, h, rfl⟩]
  rfl

/-- On a disabled engine, or with a channel that is not valid, G.SETW changes the response alone. -/
theorem exec_gSetw_idle {s : State} {ch : BitVec 4} (width : Micros)
    (h : s.gen.en = false ∨ validChannel s.gen ch = false) :
    exec (.gSetw ch width) s = .next (s.respond 0) := by
  rcases h with hen | hvalid
  · simp [exec, execGSetw, hen]
  · exact execGSetw_of_not_validChannel width hvalid

/-! ### The timer's events -/

/-- The event brings a compare match with the counter at `n` (41_generator.md R103, R106). -/
def MatchAt (i : Instr) (g : Gen) (n : Count8) : Prop :=
  (i = .gCmatch ∧ n = g.cnt) ∨ (i = .gTick ∧ MatchDue g ∧ n = g.cnt + 1)

/-- The generator with its counter at `n`. -/
def Gen.withCnt (g : Gen) (n : Count8) : Gen := { g with cnt := n }

/-- HeaderStep's result at a frame boundary (41_generator.md R104). -/
def committed (c : Config) (g : Gen) (cur' : Table) (e : EncodedWidth) : Gen :=
  { togglePin g with
    ocr := g.ocr + hdrStep c, aidx := 0, cur := cur', sync := 0xFF, work := e, phase := .tail }

/-- HeaderStep's result within a frame (41_generator.md R104). -/
def loaded (c : Config) (g : Gen) (e : EncodedWidth) : Gen :=
  { togglePin g with ocr := g.ocr + hdrStep c, aidx := g.aidx + 1, work := e, phase := .tail }

/-- The next HeaderStep commits: AIDX stands at NCH (or above). -/
abbrev LastSlot (g : Gen) : Prop := g.nch < g.aidx + 1

/-- The copy a commit makes of slots 0 to NCH. -/
abbrev Copied (g : Gen) (cur' : Table) : Prop := copySlots g.next g.cur (g.nch.toNat + 1) = .ok cur'

/-- What a compare match can do (41_generator.md R103 to R105), with the result of each case. -/
theorem compareMatch_cases {c : Config} {g g' : Gen} (h : compareMatch c g = .ok g') :
    (g.cie = false ∧ g' = togglePin g) ∨
      (g.cie = true ∧ g.phase = .header ∧ LastSlot g ∧
        ∃ cur' e, Copied g cur' ∧ cur'[0]? = some (some e) ∧ g' = committed c g cur' e) ∨
      (g.cie = true ∧ g.phase = .header ∧ ¬ LastSlot g ∧
        ∃ e, g.cur[(g.aidx + 1).toNat]? = some (some e) ∧ g' = loaded c g e) ∨
      (g.cie = true ∧ g.phase = .tail ∧ g' = tailStep (togglePin g)) := by
  obtain hoff | ⟨hcie, hphase, hhead⟩ | htail := compareMatch_ok h
  · exact .inl hoff
  · obtain ⟨hlast, cur', e, hcopy, he, hg⟩ | ⟨hlast, e, he, hg⟩ := headerStep_ok hhead
    · exact .inr (.inl ⟨hcie, hphase, hlast, cur', e, hcopy, he, hg⟩)
    · exact .inr (.inr (.inl ⟨hcie, hphase, hlast, e, he, hg⟩))
  · exact .inr (.inr (.inr htail))

/-- With the handler off a compare match only toggles the pin. -/
theorem compareMatch_off {c : Config} {g : Gen} (hcie : g.cie = false) :
    compareMatch c g = .ok (togglePin g) := by
  simp [compareMatch, hcie]

/-- A commit completes when its copy does and slot 0 holds a value. -/
theorem compareMatch_commit {c : Config} {g : Gen} {cur' : Table} {e : EncodedWidth} (hcie : g.cie = true)
    (hphase : g.phase = .header) (hlast : LastSlot g) (hcopy : Copied g cur')
    (he : cur'[0]? = some (some e)) : compareMatch c g = .ok (committed c g cur' e) := by
  have hread : readSlot .cur cur' (0 : BitVec 4).toNat = .ok e := readSlot_ok_iff.mpr he
  simp only [compareMatch, hcie, hphase, if_true, headerStep, togglePin_nch, togglePin_aidx, if_pos hlast,
    togglePin_next, togglePin_cur, show copySlots g.next g.cur (g.nch.toNat + 1) = .ok cur' from hcopy,
    loadWork, hread]
  rfl

/-- A load completes when the next slot holds a value. -/
theorem compareMatch_load {c : Config} {g : Gen} {e : EncodedWidth} (hcie : g.cie = true)
    (hphase : g.phase = .header) (hlast : ¬ LastSlot g)
    (he : g.cur[(g.aidx + 1).toNat]? = some (some e)) : compareMatch c g = .ok (loaded c g e) := by
  simp only [compareMatch, hcie, hphase, if_true, headerStep, togglePin_nch, togglePin_aidx, if_neg hlast,
    togglePin_cur, loadWork, readSlot_ok_iff.mpr he]
  rfl

/-- G.CMATCH is the compare match. -/
theorem exec_gCmatch (s : State) : exec .gCmatch s = onGen s (compareMatch s.cfg s.gen) 0 := rfl

/-- A count short of OCR only advances CNT. -/
theorem exec_gTick_of_not_due {s : State} (h : ¬ MatchDue s.gen) :
    exec .gTick s = .next ((s.setGen (s.gen.withCnt (s.gen.cnt + 1))).respond 0) := by
  simp only [exec, execGTick, timerTick, if_neg h, onGen_ok, Gen.withCnt]

/-- A count that reaches OCR is a compare match with CNT advanced. -/
theorem exec_gTick_of_due {s : State} (h : MatchDue s.gen) :
    exec .gTick s = onGen s (compareMatch s.cfg (s.gen.withCnt (s.gen.cnt + 1))) 0 := by
  simp only [exec, execGTick, timerTick, if_pos h, Gen.withCnt]

/-! ### The generator's step -/

/-- What an event can do to the generator: one constructor for each way a rule of 41_generator.md can
end. -/
inductive GenStep (c : Config) (g : Gen) : Instr → Gen → Prop
  | other {i : Instr} : i.part ≠ .generator → GenStep c g i g
  | initFailed (pol : Polarity) (nch : BitVec 4) (per : Micros) :
      GenStep c g (.gInit false pol nch per) (initFailed g)
  | init {n m n' : Nat} {f : Int} {e : EncodedWidth} (pol : Polarity) (nch : BitVec 4) (per : Micros) :
      nch ≠ 0 → FillerStored c (initTable c g n pol nch per) m f e n' →
      GenStep c g (.gInit true pol nch per) (initEnable (withFiller (initTable c g n pol nch per) e))
  | setwIdle (ch : BitVec 4) (width : Micros) : GenStep c g (.gSetw ch width) g
  | setw {n m n' : Nat} {f : Int} {e : EncodedWidth} (ch : BitVec 4) (width : Micros) :
      g.en = true → validChannel g ch = true → FillerStored c (setChannel c g n ch width) m f e n' →
      GenStep c g (.gSetw ch width) (withFiller (setChannel c g n ch width) e)
  | poll (m : FlagSet) : GenStep c g (.gPoll m) { g with sync := pollRest g.sync m }
  | count : ¬ MatchDue g → GenStep c g .gTick (g.withCnt (g.cnt + 1))
  | off {i : Instr} {n : Count8} : MatchAt i g n → g.cie = false →
      GenStep c g i (togglePin (g.withCnt n))
  | commit {i : Instr} {n : Count8} {cur' : Table} {e : EncodedWidth} : MatchAt i g n → g.cie = true →
      g.phase = .header → LastSlot g → Copied g cur' → cur'[0]? = some (some e) →
      GenStep c g i (committed c (g.withCnt n) cur' e)
  | load {i : Instr} {n : Count8} {e : EncodedWidth} : MatchAt i g n → g.cie = true →
      g.phase = .header → ¬ LastSlot g → g.cur[(g.aidx + 1).toNat]? = some (some e) →
      GenStep c g i (loaded c (g.withCnt n) e)
  | tail {i : Instr} {n : Count8} : MatchAt i g n → g.cie = true → g.phase = .tail →
      GenStep c g i (tailStep (togglePin (g.withCnt n)))

/-- A compare match is one of the last four steps. -/
theorem genStep_of_compareMatch {c : Config} {i : Instr} {g g' : Gen} {n : Count8} (hm : MatchAt i g n)
    (h : compareMatch c (g.withCnt n) = .ok g') : GenStep c g i g' := by
  obtain ⟨hcie, rfl⟩ | ⟨hcie, hphase, hlast, cur', e, hcopy, he, rfl⟩ | ⟨hcie, hphase, hlast, e, he, rfl⟩ |
    ⟨hcie, hphase, rfl⟩ := compareMatch_cases h
  · exact .off hm hcie
  · exact .commit hm hcie hphase hlast hcopy he
  · exact .load hm hcie hphase hlast he
  · exact .tail hm hcie hphase

/-- An event that does not work on the generator leaves it alone. -/
theorem exec_gen_of_part_ne_generator {i : Instr} {s t : State} (hpart : i.part ≠ .generator)
    (h : exec i s = .next t) : t.gen = s.gen := by
  cases i with
  | tUs2t us => cases h; rfl
  | tEnc ticks => cases h; rfl
  | tDec ew => cases h; rfl
  | dEdge line ts => cases h; rfl
  | dAttach d slotOk line => obtain ⟨x, -, rfl⟩ := onDec_next h; rfl
  | dNb d => obtain ⟨x, -, rfl⟩ := onDec_next h; rfl
  | dWidth d ch => obtain ⟨x, -, rfl⟩ := onDec_next h; rfl
  | dPeriod d => obtain ⟨x, -, rfl⟩ := onDec_next h; rfl
  | dIssync d m => obtain ⟨x, -, rfl⟩ := onDec_next h; rfl
  | dSuspend d => obtain ⟨x, -, rfl⟩ := onDec_next h; rfl
  | dResume d now => obtain ⟨x, -, rfl⟩ := onDec_next h; rfl
  | _ => exact absurd rfl hpart

/-- Every completed event is one of the generator's steps. -/
theorem exec_genStep {i : Instr} {s t : State} (h : exec i s = .next t) : GenStep s.cfg s.gen i t.gen := by
  cases i with
  | gInit a pol nch per =>
    obtain ⟨hnch, ⟨rfl, rfl⟩ | ⟨rfl, f, e, n', hstored, rfl⟩⟩ := exec_gInit_next h
    · exact .initFailed pol nch per
    · exact .init pol nch per hnch hstored
  | gSetw ch width =>
    obtain ⟨-, rfl⟩ | ⟨hen, hvalid, f, e, n', hstored, rfl⟩ := exec_gSetw_next h
    · exact .setwIdle ch width
    · exact .setw ch width hen hvalid hstored
  | gPoll m => cases h; exact .poll m
  | gCmatch =>
    obtain ⟨g', hg, rfl⟩ := onGen_next h
    exact genStep_of_compareMatch (.inl ⟨rfl, rfl⟩) hg
  | gTick =>
    by_cases hdue : MatchDue s.gen
    · rw [exec_gTick_of_due hdue] at h
      obtain ⟨g', hg, rfl⟩ := onGen_next h
      exact genStep_of_compareMatch (.inr ⟨rfl, hdue, rfl⟩) hg
    · rw [exec_gTick_of_not_due hdue] at h
      cases h
      exact .count hdue
  | _ =>
    rw [exec_gen_of_part_ne_generator (by simp [Instr.part]) h]
    exact .other (by simp [Instr.part])

/-! ### A decoder's step -/

/-- What an event does to decoder `k` (42_decoder.md): an event that names a decoder works on
that one, an edge on each, and every other event on none. -/
def Dec.after (i : Instr) (k : Nat) (x : Dec) : Dec :=
  match i with
  | .dAttach d slotOk line => if d.toNat = k then attached slotOk line else x
  | .dEdge line ts => x.edge line ts
  | .dIssync d m => if d.toNat = k then { x with sync := pollRest x.sync m } else x
  | .dSuspend d => if d.toNat = k then { x with att := false, widx := widxInvalid } else x
  | .dResume d now => if d.toNat = k then { x with prevTs := now, att := x.bound } else x
  | _ => x

/-- An operation on decoder `d` changes it and no other. -/
theorem onDec_getElem?_dec {s t : State} {d : BitVec 3} {f : Dec → Dec × Int}
    (h : onDec s d f = .next t) (k : Nat) :
    t.dec[k]? = (s.dec[k]?).map fun x => if d.toNat = k then (f x).1 else x := by
  obtain ⟨x, hx, rfl⟩ := onDec_next h
  rw [State.respond_dec, State.setDec_dec, List.getElem?_set]
  by_cases hk : d.toNat = k
  · subst hk
    obtain ⟨hlt, -⟩ := List.getElem?_eq_some_iff.mp hx
    simp only [if_true, hlt, hx, Option.map_some]
  · simp [hk]

/-- An operation that only reads a decoder leaves the decoders alone. -/
theorem onDec_read_dec {s t : State} {d : BitVec 3} {v : Dec → Int}
    (h : onDec s d (fun y => (y, v y)) = .next t) : t.dec = s.dec := by
  obtain ⟨x, hx, -⟩ := onDec_next h
  rw [onDec_read v hx] at h
  cases h
  rfl

/-- Every completed event has on each decoder the effect `Dec.after` says. -/
theorem exec_getElem?_dec {i : Instr} {s t : State} (h : exec i s = .next t) (k : Nat) :
    t.dec[k]? = (s.dec[k]?).map (Dec.after i k) := by
  cases i with
  | dAttach d slotOk line =>
    refine (onDec_getElem?_dec h k).trans ?_
    cases slotOk <;> rfl
  | dEdge line ts => cases h; exact List.getElem?_map
  | dNb d => rw [onDec_read_dec h]; exact Option.map_id'.symm
  | dWidth d ch => rw [onDec_read_dec h]; exact Option.map_id'.symm
  | dPeriod d => rw [onDec_read_dec h]; exact Option.map_id'.symm
  | dIssync d m => exact onDec_getElem?_dec h k
  | dSuspend d => exact onDec_getElem?_dec h k
  | dResume d now => exact onDec_getElem?_dec h k
  | _ =>
    rw [exec_dec_of_part_ne_decoder (by simp [Instr.part]) h]
    exact Option.map_id'.symm

/-- A decoder before an event and the same decoder after it. -/
theorem exec_dec_eq_after {i : Instr} {s t : State} {k : Nat} {x y : Dec} (h : exec i s = .next t)
    (hx : s.dec[k]? = some x) (hy : t.dec[k]? = some y) : y = x.after i k := by
  rw [exec_getElem?_dec h, hx, Option.map_some, Option.some_inj] at hy
  exact hy.symm

/-- The decoders after an event, as a list. -/
theorem exec_dec {i : Instr} {s t : State} (h : exec i s = .next t) :
    t.dec = s.dec.mapIdx (Dec.after i) :=
  List.ext_getElem? fun k => by rw [exec_getElem?_dec h, List.getElem?_mapIdx]

/-- No event adds or removes a decoder. -/
theorem exec_dec_length {i : Instr} {s t : State} (h : exec i s = .next t) :
    t.dec.length = s.dec.length := by
  rw [exec_dec h, List.length_mapIdx]

/-! ### The rest of the state -/

/-- What an operation on a decoder leaves alone. -/
theorem onDec_frame {s t : State} {d : BitVec 3} {f : Dec → Dec × Int} (h : onDec s d f = .next t) :
    t = { s with dec := t.dec, resp := t.resp } := by
  obtain ⟨x, -, rfl⟩ := onDec_next h
  rfl

/-- An event of a decoder changes the decoders and the response alone. -/
theorem exec_decoder_frame {i : Instr} {s t : State} (hpart : i.part = .decoder) (h : exec i s = .next t) :
    t = { s with dec := t.dec, resp := t.resp } := by
  cases i with
  | dAttach d slotOk line => exact onDec_frame h
  | dEdge line ts => cases h; rfl
  | dNb d => exact onDec_frame h
  | dWidth d ch => exact onDec_frame h
  | dPeriod d => exact onDec_frame h
  | dIssync d m => exact onDec_frame h
  | dSuspend d => exact onDec_frame h
  | dResume d now => exact onDec_frame h
  | _ => cases hpart

/-- Every other event changes the generator, the draws and the response alone. -/
theorem exec_generator_frame {i : Instr} {s t : State} (hpart : i.part ≠ .decoder)
    (h : exec i s = .next t) : t = { s with gen := t.gen, draws := t.draws, resp := t.resp } := by
  cases i with
  | tUs2t us => cases h; rfl
  | gInit a pol nch per =>
    obtain ⟨-, ⟨-, rfl⟩ | ⟨-, f, e, n', -, rfl⟩⟩ := exec_gInit_next h <;> rfl
  | gSetw ch width =>
    obtain ⟨-, rfl⟩ | ⟨-, -, f, e, n', -, rfl⟩ := exec_gSetw_next h <;> rfl
  | gPoll m => cases h; rfl
  | gCmatch => obtain ⟨g', -, rfl⟩ := onGen_next h; rfl
  | gTick => obtain ⟨g', -, rfl⟩ := onGen_next h; rfl
  | tEnc ticks => cases h; rfl
  | tDec ew => cases h; rfl
  | _ => exact absurd rfl hpart

/-- No event changes the configuration or the events still to come. -/
theorem exec_cfg_events {i : Instr} {s t : State} (h : exec i s = .next t) :
    t.cfg = s.cfg ∧ t.events = s.events := by
  by_cases hpart : i.part = .decoder
  · rw [exec_decoder_frame hpart h]
    exact ⟨rfl, rfl⟩
  · rw [exec_generator_frame hpart h]
    exact ⟨rfl, rfl⟩

/-- No event changes the configuration. -/
theorem exec_cfg {i : Instr} {s t : State} (h : exec i s = .next t) : t.cfg = s.cfg :=
  (exec_cfg_events h).1

/-- No event takes a draw back. -/
theorem exec_draws {i : Instr} {s t : State} (h : exec i s = .next t) : s.draws ≤ t.draws := by
  by_cases hpart : i.part = .decoder
  · rw [exec_decoder_frame hpart h]
  cases i with
  | tUs2t us => cases h; exact Nat.le_refl _
  | gInit a pol nch per =>
    obtain ⟨-, ⟨-, rfl⟩ | ⟨-, f, e, n', hstored, rfl⟩⟩ := exec_gInit_next h
    · exact Nat.le_refl _
    · exact (le_neutralDraws _ _ _).trans hstored.draws_le
  | gSetw ch width =>
    obtain ⟨-, rfl⟩ | ⟨-, -, f, e, n', hstored, rfl⟩ := exec_gSetw_next h
    · exact Nat.le_refl _
    · exact (le_encodeOrDraw_draws _ _).trans hstored.draws_le
  | gPoll m => cases h; exact Nat.le_refl _
  | gCmatch => obtain ⟨g', -, rfl⟩ := onGen_next h; exact Nat.le_refl _
  | gTick => obtain ⟨g', -, rfl⟩ := onGen_next h; exact Nat.le_refl _
  | tEnc ticks => cases h; exact le_encodeOrDraw_draws _ _
  | tDec ew => cases h; exact Nat.le_refl _
  | _ => exact absurd rfl hpart

/-! ### The response -/

/-- What an operation on a decoder answers. -/
theorem onDec_resp {s t : State} {d : BitVec 3} {f : Dec → Dec × Int} (h : onDec s d f = .next t) :
    ∃ x, t.resp = some (f x).2 := by
  obtain ⟨x, -, rfl⟩ := onDec_next h
  exact ⟨x, rfl⟩

/-- What an operation on the generator answers. -/
theorem onGen_resp {s t : State} {g : Except Fault Gen} {r : Int} (h : onGen s g r = .next t) :
    t.resp = some r := by
  obtain ⟨g', -, rfl⟩ := onGen_next h
  rfl

/-- An 8-bit answer. -/
theorem toNat_range8 (v : BitVec 8) : 0 ≤ (v.toNat : Int) ∧ (v.toNat : Int) ≤ 255 := by
  have hv := v.isLt
  omega

/-- A 16-bit answer. -/
theorem toNat_range16 (v : BitVec 16) : 0 ≤ (v.toNat : Int) ∧ (v.toNat : Int) ≤ 65535 := by
  have hv := v.isLt
  omega

/-- The reported count is at most the capacity. -/
theorem Dec.count_le (x : Dec) : x.count ≤ 9 := by
  simp only [Dec.count, decCapacity]
  split <;> omega

/-- A read width is a 16-bit value, the entry's or 0. -/
theorem Dec.width_lt (x : Dec) (ch : BitVec 4) : x.width ch < 65536 := by
  unfold Dec.width raise
  split
  · exact BitVec.isLt _
  · decide

/-- `decodedTicks` of any encoding. -/
theorem decodedTicks_range (e : EncodedWidth) : -128 ≤ decodedTicks e ∧ decodedTicks e ≤ 32767 := by
  have hovf := e.ovf.isLt
  have hrem := e.rem.isLt
  have hhalf := e.half.toNat_le
  rw [decodedTicks_eq]
  omega

/-- Settles O8: each event's own answer, and its range. -/
theorem responsesLieInTheirRanges : Obligations.ResponsesLieInTheirRanges := by
  unfold Obligations.ResponsesLieInTheirRanges
  intro i s t h
  cases i with
  | tUs2t us => cases h; exact ⟨_, rfl, Int.natCast_nonneg _⟩
  | gInit a pol nch per =>
    obtain ⟨-, ⟨rfl, rfl⟩ | ⟨rfl, f, e, n', -, rfl⟩⟩ := exec_gInit_next h <;> exact ⟨_, rfl, rfl⟩
  | gSetw ch width =>
    obtain ⟨-, rfl⟩ | ⟨-, -, f, e, n', -, rfl⟩ := exec_gSetw_next h <;> exact ⟨_, rfl, rfl⟩
  | gPoll m => cases h; exact ⟨_, rfl, toNat_range8 _⟩
  | gCmatch => exact ⟨0, onGen_resp h, rfl⟩
  | gTick => exact ⟨0, onGen_resp h, rfl⟩
  | dAttach d slotOk line =>
    obtain ⟨x, hr⟩ := onDec_resp h
    cases slotOk <;> exact ⟨_, hr, rfl⟩
  | dEdge line ts => cases h; exact ⟨0, rfl, rfl⟩
  | dNb d =>
    obtain ⟨x, hr⟩ := onDec_resp h
    exact ⟨_, hr, Int.natCast_nonneg _, Int.ofNat_le.mpr x.count_le⟩
  | dWidth d ch =>
    obtain ⟨x, hr⟩ := onDec_resp h
    exact ⟨_, hr, Int.natCast_nonneg _, Int.ofNat_le.mpr (Nat.le_of_lt_succ (x.width_lt ch))⟩
  | dPeriod d =>
    obtain ⟨x, hr⟩ := onDec_resp h
    exact ⟨_, hr, toNat_range16 _⟩
  | dIssync d m =>
    obtain ⟨x, hr⟩ := onDec_resp h
    exact ⟨_, hr, toNat_range8 _⟩
  | dSuspend d =>
    obtain ⟨x, hr⟩ := onDec_resp h
    exact ⟨0, hr, rfl⟩
  | dResume d now =>
    obtain ⟨x, hr⟩ := onDec_resp h
    exact ⟨0, hr, rfl⟩
  | tEnc ticks => cases h; exact ⟨_, rfl, toNat_range16 _⟩
  | tDec ew => cases h; exact ⟨_, rfl, decodedTicks_range _⟩

/-- Settles O7: the frame of an event; that there is a response is part of O8. -/
theorem configurationIsNeverWritten : Obligations.ConfigurationIsNeverWritten := by
  unfold Obligations.ConfigurationIsNeverWritten
  intro i s t h
  obtain ⟨hcfg, hevents⟩ := exec_cfg_events h
  obtain ⟨r, hr, -⟩ := responsesLieInTheirRanges i s t h
  exact ⟨hcfg, hevents, exec_draws h, exec_dec_length h, r, hr⟩

end Sys2Proof.Machine
end

section
/-! PROOFS. Who writes what (10_state.md section 6), that nothing is shared, and that events of the
generator and of the decoder commute (20_memory.md section 4). -/

namespace Sys2Proof.Machine

/-! ### The generator's writers -/

/-- A compare match is the timer's. -/
theorem MatchAt.agent_eq {i : Instr} {g : Gen} {n : Count8} (h : MatchAt i g n) : i.agent = .timer := by
  obtain ⟨rfl, -⟩ | ⟨rfl, -⟩ := h <;> rfl

/-- A compare match runs in interrupt context. -/
theorem MatchAt.context_eq {i : Instr} {g : Gen} {n : Count8} (h : MatchAt i g n) :
    i.context = .interrupt := by
  rw [Instr.context, h.agent_eq]

/-- Only G.TICK counts. -/
theorem MatchAt.cnt_eq {i : Instr} {g : Gen} {n : Count8} (h : MatchAt i g n) (hi : i.op ≠ .gTick) :
    n = g.cnt := by
  obtain ⟨-, rfl⟩ | ⟨rfl, -⟩ := h
  · rfl
  · exact absurd rfl hi

section
variable {c : Config} {i : Instr} {g g' : Gen}

/-- Only G.INIT writes POL, NCH, PERIOD_US, EN and CIE. -/
theorem GenStep.config_eq (h : GenStep c g i g') (hi : i.op ≠ .gInit) :
    g'.pol = g.pol ∧ g'.nch = g.nch ∧ g'.periodUs = g.periodUs ∧ g'.en = g.en ∧ g'.cie = g.cie := by
  cases h with
  | initFailed => exact absurd rfl hi
  | init => exact absurd rfl hi
  | _ => exact ⟨rfl, rfl, rfl, rfl, rfl⟩

/-- Only G.INIT and G.SETW write the pending side. -/
theorem GenStep.next_eq (h : GenStep c g i g') (hi : i.op ≠ .gInit) (hw : i.op ≠ .gSetw) :
    g'.next = g.next := by
  cases h with
  | init => exact absurd rfl hi
  | setw => exact absurd rfl hw
  | _ => rfl

/-- Only a commit writes the current side; it is in interrupt context and the Header phase, restarts
AIDX and raises every flag. -/
theorem GenStep.cur_eq_or (h : GenStep c g i g') :
    g'.cur = g.cur ∨ (i.agent = .timer ∧ g.phase = .header ∧ g'.aidx = 0 ∧ g'.sync = 0xFF) := by
  cases h with
  | commit hm _ hphase => exact .inr ⟨hm.agent_eq, hphase, rfl, rfl⟩
  | _ => exact .inl rfl

/-- Only the handler writes WORK and OCR. -/
theorem GenStep.work_ocr_eq (h : GenStep c g i g') (hi : i.agent ≠ .timer) :
    g'.work = g.work ∧ g'.ocr = g.ocr := by
  cases h with
  | commit hm => exact absurd hm.agent_eq hi
  | load hm => exact absurd hm.agent_eq hi
  | tail hm => exact absurd hm.agent_eq hi
  | _ => exact ⟨rfl, rfl⟩

/-- Only G.TICK writes CNT. -/
theorem GenStep.cnt_eq (h : GenStep c g i g') (hi : i.op ≠ .gTick) : g'.cnt = g.cnt := by
  cases h with
  | count => exact absurd rfl hi
  | off hm => exact hm.cnt_eq hi
  | commit hm => exact hm.cnt_eq hi
  | load hm => exact hm.cnt_eq hi
  | tail hm => exact hm.cnt_eq hi
  | _ => rfl

/-- Only the timer's events and G.INIT write AIDX, PHASE, TOG and PIN. -/
theorem GenStep.control_eq (h : GenStep c g i g') (ht : i.agent ≠ .timer) (hi : i.op ≠ .gInit) :
    g'.aidx = g.aidx ∧ g'.phase = g.phase ∧ g'.tog = g.tog ∧ g'.pin = g.pin := by
  cases h with
  | initFailed => exact absurd rfl hi
  | init => exact absurd rfl hi
  | off hm => exact absurd hm.agent_eq ht
  | commit hm => exact absurd hm.agent_eq ht
  | load hm => exact absurd hm.agent_eq ht
  | tail hm => exact absurd hm.agent_eq ht
  | _ => exact ⟨rfl, rfl, rfl, rfl⟩

/-- What an event can do to the generator's flags: keep them, clear the polled ones, clear all with a
G.INIT that has its table, raise all with a commit. -/
theorem GenStep.sync_cases (h : GenStep c g i g') :
    g'.sync = g.sync ∨ (∃ m, i = .gPoll m ∧ g'.sync = pollRest g.sync m) ∨
      (∃ pol nch per, i = .gInit true pol nch per ∧ g'.sync = 0) ∨
      ((∃ n, MatchAt i g n) ∧ g.cie = true ∧ g.phase = .header ∧ LastSlot g ∧ g'.sync = 0xFF) := by
  cases h with
  | poll m => exact .inr (.inl ⟨m, rfl, rfl⟩)
  | init pol nch per => exact .inr (.inr (.inl ⟨pol, nch, per, rfl, rfl⟩))
  | commit hm hcie hphase hlast => exact .inr (.inr (.inr ⟨⟨_, hm⟩, hcie, hphase, hlast, rfl⟩))
  | _ => exact .inl rfl

/-- Settles O39: the writers of each element, read off the generator's steps. -/
theorem generatorElementsHaveTheirWriters : Obligations.GeneratorElementsHaveTheirWriters := by
  unfold Obligations.GeneratorElementsHaveTheirWriters
  intro i s t h
  have hstep := exec_genStep h
  refine ⟨hstep.config_eq, hstep.next_eq, fun ht => ?handler, hstep.cnt_eq, hstep.control_eq,
    fun ht hi hp => ?flags⟩
  case handler =>
    obtain hcur | ⟨hagent, -⟩ := hstep.cur_eq_or
    · exact ⟨hcur, hstep.work_ocr_eq ht⟩
    · exact absurd hagent ht
  case flags =>
    obtain hsync | ⟨m, rfl, -⟩ | ⟨pol, nch, per, rfl, -⟩ | ⟨⟨n, hm⟩, -⟩ := hstep.sync_cases
    · exact hsync
    · exact absurd rfl hp
    · exact absurd rfl hi
    · exact absurd hm.agent_eq ht

/-! ### The decoder's writers -/

/-- An interval as a number (40_tickclock_arith.md R90). -/
theorem interval_toNat (ts prev : Micros) :
    (interval ts prev).toNat = (ts.toNat + 65536 - prev.toNat) % 65536 := by
  have hprev := prev.isLt
  rw [interval, BitVec.toNat_sub]
  congr 1
  omega

/-- An edge is a synchro gap from 3000 µs on. -/
theorem Dec.isSync_iff {x : Dec} {ts : Micros} :
    x.isSync ts = true ↔ 3000 ≤ (ts.toNat + 65536 - x.prevTs.toNat) % 65536 := by
  rw [Dec.isSync, decide_eq_true_iff, Dec.gap, interval_toNat]

/-- A decoder hears the edges of its line while it is attached. -/
theorem Dec.hears_iff {x : Dec} {line : BitVec 8} : x.hears line = true ↔ x.att = true ∧ x.line = line :=
  decide_eq_true_iff

/-- An event that names another decoder leaves this one alone. -/
theorem Dec.after_of_ne {i : Instr} {d : BitVec 3} {k : Nat} (x : Dec) (hi : i.inst? = some d)
    (hk : k ≠ d.toNat) : x.after i k = x := by
  cases i with
  | dAttach d' slotOk line => cases hi; exact if_neg hk.symm
  | dIssync d' m => cases hi; exact if_neg hk.symm
  | dSuspend d' => cases hi; exact if_neg hk.symm
  | dResume d' now => cases hi; exact if_neg hk.symm
  | dEdge line ts => cases hi
  | _ => rfl

/-- What an edge leaves alone: LINE, BOUND and ATT. -/
theorem Dec.edge_binding (x : Dec) (line : BitVec 8) (ts : Micros) :
    (x.edge line ts).line = x.line ∧ (x.edge line ts).bound = x.bound ∧ (x.edge line ts).att = x.att := by
  obtain ⟨-, he⟩ | ⟨-, -, he⟩ | ⟨-, -, -, he⟩ | ⟨-, -, -, he⟩ := x.edge_cases line ts <;> rw [he] <;>
    exact ⟨rfl, rfl, rfl⟩

/-- Settles O40: the writers of each element, read off the effect on one decoder. -/
theorem decoderElementsHaveTheirWriters : Obligations.DecoderElementsHaveTheirWriters := by
  unfold Obligations.DecoderElementsHaveTheirWriters
  intro i s t h k x y hx hy
  obtain rfl := exec_dec_eq_after h hx hy
  cases i with
  | dAttach d slotOk line => simp [Instr.op]
  | dEdge line ts => simp [Instr.op, Dec.after, x.edge_binding line ts]
  | dIssync d m => by_cases hk : d.toNat = k <;> simp [Instr.op, Dec.after, hk]
  | dSuspend d => by_cases hk : d.toNat = k <;> simp [Instr.op, Dec.after, hk]
  | dResume d now => by_cases hk : d.toNat = k <;> simp [Instr.op, Dec.after, hk]
  | _ => simp [Dec.after]

/-- What an event can do to the flags of decoder `k`: keep them, clear the polled ones, clear all by an
attach, raise all by a synchro edge that the decoder hears. -/
theorem Dec.after_sync_cases (i : Instr) (k : Nat) (x : Dec) :
    (x.after i k).sync = x.sync ∨
      (∃ d m, i = .dIssync d m ∧ d.toNat = k ∧ (x.after i k).sync = pollRest x.sync m) ∨
      (∃ d slotOk line, i = .dAttach d slotOk line ∧ d.toNat = k ∧ (x.after i k).sync = 0) ∨
      (∃ line ts, i = .dEdge line ts ∧ x.hears line = true ∧ x.isSync ts = true ∧
        (x.after i k).sync = 0xFF) := by
  cases i with
  | dAttach d slotOk line =>
    by_cases hk : d.toNat = k
    · exact .inr (.inr (.inl ⟨d, slotOk, line, rfl, hk, by simp [Dec.after, hk, attached]⟩))
    · exact .inl (by simp [Dec.after, hk])
  | dIssync d m =>
    by_cases hk : d.toNat = k
    · exact .inr (.inl ⟨d, m, rfl, hk, by simp [Dec.after, hk]⟩)
    · exact .inl (by simp [Dec.after, hk])
  | dSuspend d => by_cases hk : d.toNat = k <;> simp [Dec.after, hk]
  | dResume d now => by_cases hk : d.toNat = k <;> simp [Dec.after, hk]
  | dEdge line ts =>
    simp only [Dec.after]
    obtain ⟨-, he⟩ | ⟨hhears, hsync, he⟩ | ⟨-, -, -, he⟩ | ⟨-, -, -, he⟩ := x.edge_cases line ts
    · exact .inl (by rw [he])
    · exact .inr (.inr (.inr ⟨line, ts, rfl, hhears, hsync, by rw [he]; rfl⟩))
    · exact .inl (by rw [he]; rfl)
    · exact .inl (by rw [he]; rfl)
  | _ => exact .inl rfl

/-! ### One context writes each side -/

/-- A poll sets no bit. -/
theorem getLsbD_pollRest (f m : FlagSet) (b : Nat) :
    (pollRest f m).getLsbD b = (f.getLsbD b && !m.getLsbD b) := by
  rw [pollRest, BitVec.getLsbD_and, BitVec.getLsbD_not]
  by_cases hb : b < 8
  · simp [hb]
  · simp [BitVec.getLsbD_of_ge f b (by omega)]

/-- A cleared set has no bit. -/
theorem getLsbD_noFlags (b : Nat) : (0 : FlagSet).getLsbD b = false :=
  BitVec.getLsbD_zero

/-- A signal raises each of the eight bits. -/
theorem getLsbD_signal {b : Nat} (hb : b < 8) : (0xFF : FlagSet).getLsbD b = true := by
  have hall : (0xFF : FlagSet) = BitVec.allOnes 8 := rfl
  rw [hall, BitVec.getLsbD_allOnes, decide_eq_true hb]

/-- Only an event of interrupt context sets a bit of the generator's flags. -/
theorem GenStep.context_of_bit_set (h : GenStep c g i g') {b : Nat} (hb : g.sync.getLsbD b = false)
    (hb' : g'.sync.getLsbD b = true) : i.context = .interrupt := by
  obtain hsync | ⟨m, -, hsync⟩ | ⟨-, -, -, -, hsync⟩ | ⟨⟨n, hm⟩, -⟩ := h.sync_cases
  · rw [hsync, hb] at hb'
    cases hb'
  · rw [hsync, getLsbD_pollRest, hb] at hb'
    cases hb'
  · rw [hsync, getLsbD_noFlags] at hb'
    cases hb'
  · exact hm.context_eq

/-- Only an event of host context clears a bit of the generator's flags. -/
theorem GenStep.context_of_bit_clear (h : GenStep c g i g') {b : Nat} (hb : g.sync.getLsbD b = true)
    (hb' : g'.sync.getLsbD b = false) : i.context = .host := by
  obtain hsync | ⟨m, rfl, -⟩ | ⟨pol, nch, per, rfl, -⟩ | ⟨-, -, -, -, hsync⟩ := h.sync_cases
  · rw [hsync, hb] at hb'
    cases hb'
  · rfl
  · rfl
  · rw [hsync, getLsbD_signal (BitVec.lt_of_getLsbD hb)] at hb'
    cases hb'

/-- Only an event of interrupt context sets a bit of a decoder's flags. -/
theorem Dec.context_of_bit_set {x : Dec} {k b : Nat} (hb : x.sync.getLsbD b = false)
    (hb' : (x.after i k).sync.getLsbD b = true) : i.context = .interrupt := by
  obtain hsync | ⟨d, m, -, -, hsync⟩ | ⟨d, slotOk, line, -, -, hsync⟩ | ⟨line, ts, rfl, -⟩ :=
    x.after_sync_cases i k
  · rw [hsync, hb] at hb'
    cases hb'
  · rw [hsync, getLsbD_pollRest, hb] at hb'
    cases hb'
  · rw [hsync, getLsbD_noFlags] at hb'
    cases hb'
  · rfl

/-- Only an event of host context clears a bit of a decoder's flags. -/
theorem Dec.context_of_bit_clear {x : Dec} {k b : Nat} (hb : x.sync.getLsbD b = true)
    (hb' : (x.after i k).sync.getLsbD b = false) : i.context = .host := by
  obtain hsync | ⟨d, m, rfl, -⟩ | ⟨d, slotOk, line, rfl, -⟩ | ⟨line, ts, -, -, -, hsync⟩ :=
    x.after_sync_cases i k
  · rw [hsync, hb] at hb'
    cases hb'
  · rfl
  · rfl
  · rw [hsync, getLsbD_signal (BitVec.lt_of_getLsbD hb)] at hb'
    cases hb'

/-- G.INIT and G.SETW are the host's. -/
theorem context_of_op {i : Instr} (h : i.op = .gInit ∨ i.op = .gSetw) : i.context = .host := by
  cases i with
  | gInit a pol nch per => rfl
  | gSetw ch width => rfl
  | _ => simp [Instr.op] at h

end

/-- Settles O38: the pending side by the host's G.INIT and G.SETW, the current side by a commit; a flag
set is raised by a commit or a synchro edge and cleared by a poll, G.INIT or D.ATTACH. -/
theorem oneContextWritesEachSide : Obligations.OneContextWritesEachSide := by
  unfold Obligations.OneContextWritesEachSide
  intro i s t h
  have hstep := exec_genStep h
  refine ⟨fun hnext => ?pending, fun hcur => ?current, fun b => hstep.context_of_bit_set,
    fun b => hstep.context_of_bit_clear, fun k x y hx hy => ?flags⟩
  case pending =>
    have hop : i.op = .gInit ∨ i.op = .gSetw := by
      by_contra hne
      obtain ⟨hi, hw⟩ := not_or.mp hne
      exact hnext (hstep.next_eq hi hw)
    exact ⟨context_of_op hop, hop⟩
  case current =>
    obtain hsame | ⟨hagent, hphase, haidx, hsync⟩ := hstep.cur_eq_or
    · exact absurd hsame hcur
    · exact ⟨by rw [Instr.context, hagent], hphase, haidx, hsync⟩
  case flags =>
    obtain rfl := exec_dec_eq_after h hx hy
    exact ⟨fun b => Dec.context_of_bit_set, fun b => Dec.context_of_bit_clear⟩

/-! ### Nothing is shared -/

/-- Settles O41: the frames of the generator and of the decoder, and of one decoder. -/
theorem noStateIsShared : Obligations.NoStateIsShared := by
  unfold Obligations.NoStateIsShared
  intro i s t h
  refine ⟨fun hpart => exec_dec_of_part_ne_decoder hpart h,
    fun hpart => exec_gen_of_part_ne_generator hpart h, fun d hd k hk => ?_⟩
  have hafter : Dec.after i k = id := funext fun x => x.after_of_ne hd hk
  rw [exec_getElem?_dec h, hafter, Option.map_id, id]

/-! ### Generator and decoder events commute -/

/-- An operation on a decoder does the same whatever the generator, the draws and the response. -/
theorem onDec_congr {s t : State} {d : BitVec 3} {f : Dec → Dec × Int} (g : Gen) (n : Nat)
    (r : Option Int) (h : onDec s d f = .next t) :
    onDec { s with gen := g, draws := n, resp := r } d f = .next { t with gen := g, draws := n } := by
  obtain ⟨x, hx, rfl⟩ := onDec_next h
  exact onDec_some hx

/-- An event of a decoder does the same whatever the generator, the draws and the response. -/
theorem exec_decoder_congr {j : Instr} {s t : State} (hpart : j.part = .decoder) (g : Gen) (n : Nat)
    (r : Option Int) (h : exec j s = .next t) :
    exec j { s with gen := g, draws := n, resp := r } = .next { t with gen := g, draws := n } := by
  cases j with
  | dAttach d slotOk line => exact onDec_congr g n r h
  | dEdge line ts => cases h; rfl
  | dNb d => exact onDec_congr g n r h
  | dWidth d ch => exact onDec_congr g n r h
  | dPeriod d => exact onDec_congr g n r h
  | dIssync d m => exact onDec_congr g n r h
  | dSuspend d => exact onDec_congr g n r h
  | dResume d now => exact onDec_congr g n r h
  | _ => cases hpart

/-- An operation on the generator does the same whatever the decoders and the response. -/
theorem onGen_congr {s t : State} {eg : Except Fault Gen} {v : Int} (l : List Dec) (r : Option Int)
    (h : onGen s eg v = .next t) :
    onGen { s with dec := l, resp := r } eg v = .next { t with dec := l } := by
  obtain ⟨g', rfl, rfl⟩ := onGen_next h
  rfl

/-- An event of the generator does the same whatever the decoders and the response. -/
theorem exec_generator_congr {i : Instr} {s t : State} (hpart : i.part = .generator) (l : List Dec)
    (r : Option Int) (h : exec i s = .next t) :
    exec i { s with dec := l, resp := r } = .next { t with dec := l } := by
  cases i with
  | gInit a pol nch per =>
    obtain ⟨hnch, ⟨rfl, rfl⟩ | ⟨rfl, f, e, n', hstored, rfl⟩⟩ := exec_gInit_next h
    · exact exec_gInit_false pol per _ hnch
    · exact exec_gInit_of_stored hnch hstored
  | gSetw ch width =>
    obtain ⟨hidle, rfl⟩ | ⟨hen, hvalid, f, e, n', hstored, rfl⟩ := exec_gSetw_next h
    · exact exec_gSetw_idle width hidle
    · exact exec_gSetw_of_stored hen hvalid hstored
  | gPoll m => cases h; rfl
  | gCmatch => exact onGen_congr l r h
  | gTick => exact onGen_congr l r h
  | _ => cases hpart

/-- Settles O42: each event works on its own part of the state and sees the same there in either
order. -/
theorem generatorAndDecoderEventsCommute : Obligations.GeneratorAndDecoderEventsCommute := by
  unfold Obligations.GeneratorAndDecoderEventsCommute
  intro i j s t1 t2 hi hj h1 h2
  have hframe1 := exec_generator_frame (by rw [hi]; decide) h1
  have hframe2 := exec_decoder_frame hj h2
  have hs : { t1 with gen := s.gen, draws := s.draws, resp := s.resp } = s := by rw [hframe1]
  have hu1 := exec_decoder_congr hj s.gen s.draws s.resp h2
  have hs2 : { t2 with gen := s.gen, draws := s.draws } = { s with dec := t2.dec, resp := t2.resp } := by
    rw [hframe2, hframe1]
  rw [hs, hs2] at hu1
  exact ⟨_, _, hu1, exec_generator_congr hi t2.dec t2.resp h1, rfl, rfl, hframe2.symm⟩

end Sys2Proof.Machine
end

section
/-! PROOFS. The generator's host events (41_generator.md section 1): what G.INIT and G.SETW store, the
filler, and the consistency of the pending set. -/

namespace Sys2Proof.Machine

/-! ### The filler -/

/-- The sum of the pending channels, over the values the slots hold. -/
theorem sumDecoded_eq_sum {nxt : Table} {n : Nat} (e : Nat → EncodedWidth)
    (h : ∀ k, 1 ≤ k → k ≤ n → nxt[k]? = some (some (e k))) :
    sumDecoded nxt n = .ok ((List.range n).map fun k => decodedTicks (e (k + 1))).sum := by
  induction n with
  | zero => rfl
  | succ n ih =>
    have hread := readSlot_ok_iff (sp := .next).mpr (h (n + 1) (by omega) (Nat.le_refl _))
    simp only [sumDecoded, ih fun k h1 hk => h k h1 (by omega), hread, List.range_succ, List.map_append,
      List.sum_append, List.map_cons, List.map_nil, List.sum_singleton]

/-- Settles O20: the filler subtracts the sum over the channel slots. -/
theorem fillerIsPeriodLessHeadersLessChannels : Obligations.FillerIsPeriodLessHeadersLessChannels := by
  unfold Obligations.FillerIsPeriodLessHeadersLessChannels
  intro c g e h
  simp only [fillerTicks, sumDecoded_eq_sum e h]
  rfl

/-- The value stored for a filler in the encoder's domain. -/
theorem FillerStored.of_fits {c : Config} {g : Gen} {n n' : Nat} {f : Int} {e : EncodedWidth}
    (h : FillerStored c g n f e n') (hf : 0 ≤ f ∧ f ≤ 32752) : e = encodeTicks f.toNat ∧ n' = n := by
  obtain ⟨-, ⟨-, he, hn⟩ | ⟨hfit, -, -⟩⟩ := h
  · exact ⟨he, hn⟩
  · rw [fillerFits_iff.mpr hf] at hfit
    cases hfit

/-- The value stored for a filler outside the encoder's domain: some 16-bit value, drawn. -/
theorem FillerStored.of_not_fits {c : Config} {g : Gen} {n n' : Nat} {f : Int} {e : EncodedWidth}
    (h : FillerStored c g n f e n') (hf : f < 0 ∨ 32752 < f) :
    (∃ v : BitVec 16, e = unpack v) ∧ n' = n + 1 := by
  obtain ⟨-, ⟨hfit, -, -⟩ | ⟨-, he, hn⟩⟩ := h
  · rw [fillerFits_eq_false_iff.mpr hf] at hfit
    cases hfit
  · exact ⟨⟨_, he⟩, hn⟩

/-! ### G.INIT -/

/-- The pending slots after G.INIT: the filler, the neutral channels, and above NCH what was there. -/
theorem initState_slots (s : State) (pol : Polarity) (nch : BitVec 4) (per : Micros) (e : EncodedWidth)
    (n' : Nat) :
    (initState s pol nch per e n').gen.next[0]? = some (some e) ∧
      (∀ k, 1 ≤ k → k ≤ min nch.toNat 8 →
        (initState s pol nch per e n').gen.next[k]? = some (some (neutralEntry s.cfg s.draws k))) ∧
      ∀ k, min nch.toNat 8 < k → (initState s pol nch per e n').gen.next[k]? = s.gen.next[k]? := by
  have hclamp : (clampChannels nch).toNat = min nch.toNat 8 := clampChannels_toNat nch
  refine ⟨withFiller_slot0 _ e, fun k h1 hk => ?_, fun k hk => ?_⟩
  · exact (withFiller_slot_of_ne _ e (by omega)).trans (initTable_channels _ _ _ _ _ _ h1 (by omega))
  · exact (withFiller_slot_of_ne _ e (by omega)).trans (initTable_above _ _ _ _ _ _ (by omega))

/-- The idle level of the pin is high exactly for the negative polarity. -/
theorem idleLevel_eq (pol : Polarity) : idleLevel pol = decide (pol = .negative) := by
  cases pol <;> rfl

/-- The generator after G.INIT, but for its pending side. -/
theorem initState_gen (s : State) (pol : Polarity) (nch : BitVec 4) (per : Micros) (e : EncodedWidth)
    (n' : Nat) :
    (initState s pol nch per e n').gen = { s.gen with
      pol := pol
      nch := BitVec.ofNat 4 (min nch.toNat 8)
      periodUs := BitVec.ofNat 16 (min (max per.toNat 10000) 40000)
      next := (initState s pol nch per e n').gen.next
      aidx := BitVec.ofNat 4 (min nch.toNat 8)
      phase := .header
      sync := 0
      pin := decide (pol = .negative)
      tog := true
      cie := true
      en := true } := by
  rw [← idleLevel_eq]
  rfl

/-- Settles O16: the state G.INIT leaves, and that the slots up to NCH hold values. -/
theorem initConfiguresAndEnables : Obligations.InitConfiguresAndEnables := by
  unfold Obligations.InitConfiguresAndEnables
  intro pol nch per s hnch
  obtain ⟨f, e, n', -, hexec⟩ := exec_gInit_completes pol per s hnch
  obtain ⟨hzero, hchannels, habove⟩ := initState_slots s pol nch per e n'
  refine ⟨_, hexec, rfl, initState_gen s pol nch per e n', fun k hk => specified_iff.mpr ?_, habove⟩
  rcases Nat.eq_zero_or_pos k with rfl | hpos
  · exact ⟨e, hzero⟩
  · exact ⟨_, hchannels k hpos hk⟩

/-- The filler of G.INIT's pending set when the neutral width is in the encoder's domain. -/
theorem fillerTicks_initTable {c : Config} (g : Gen) (n : Nat) (pol : Polarity) (nch : BitVec 4)
    (per : Micros) (hw : widthTicks c 1500 ≤ 32752) :
    fillerTicks c (initTable c g n pol nch per) =
      .ok ((us2ticks c (min (max per.toNat 10000) 40000) : Int) -
        us2ticks c c.headerUs * ((min nch.toNat 8 : Nat) + 1) -
        (min nch.toNat 8 : Nat) * (widthTicks c 1500 : Nat)) := by
  have hnch : (initTable c g n pol nch per).nch.toNat = min nch.toNat 8 := clampChannels_toNat nch
  have hper : (initTable c g n pol nch per).periodUs.toNat = min (max per.toNat 10000) 40000 :=
    clampPeriod_toNat per
  have hslots : ∀ k, 1 ≤ k → k ≤ (initTable c g n pol nch per).nch.toNat →
      (initTable c g n pol nch per).next[k]? = some (some (encodeTicks (widthTicks c 1500))) := by
    intro k h1 hk
    rw [initTable_channels c g n pol nch per h1 hk, neutralEntry, encodeOrDraw_of_le _ hw]
  rw [fillerIsPeriodLessHeadersLessChannels c _ (fun _ => encodeTicks (widthTicks c 1500)) hslots,
    hnch, hper, decodedTicksInvertsEncode _ hw]
  simp

/-- The neutral channels draw nothing when the neutral width is in the encoder's domain. -/
theorem neutralDraws_of_le {c : Config} (n m : Nat) (h : widthTicks c 1500 ≤ 32752) :
    neutralDraws c n m = n :=
  if_pos h

/-- The neutral channels draw one value each when the neutral width is outside the encoder's domain. -/
theorem neutralDraws_of_lt {c : Config} (n m : Nat) (h : 32752 < widthTicks c 1500) :
    neutralDraws c n m = n + m :=
  if_neg (Nat.not_le.mpr h)

/-- Settles O17: the neutral channels and the filler, by whether each is in the encoder's domain. -/
theorem initStoresNeutralWidthsAndFiller : Obligations.InitStoresNeutralWidthsAndFiller := by
  unfold Obligations.InitStoresNeutralWidthsAndFiller
  intro pol nch per s t w hexec hw
  obtain rfl : w = widthTicks s.cfg 1500 := hw
  obtain ⟨-, ⟨ha, -⟩ | ⟨-, f, e, n', hstored, rfl⟩⟩ := exec_gInit_next hexec
  · cases ha
  obtain ⟨hzero, hchannels, -⟩ := initState_slots s pol nch per e n'
  refine ⟨fun hw => ⟨fun k h1 hk => ?_, fun f' hf' => ?_⟩, fun hw => ⟨fun k h1 hk => ?_, f, ?_⟩⟩
  · rw [hchannels k h1 hk, neutralEntry, encodeOrDraw_of_le _ hw]
  · rw [neutralDraws_of_le _ _ hw] at hstored
    obtain rfl : f' = f := by
      have hfill := fillerTicks_initTable s.gen s.draws pol nch per hw
      rw [hstored.1, ← hf'] at hfill
      cases hfill
      rfl
    refine ⟨fun hfits => ?_, fun hnot => ?_⟩
    · obtain ⟨rfl, rfl⟩ := hstored.of_fits hfits
      exact ⟨hzero, rfl⟩
    · obtain ⟨⟨v, rfl⟩, rfl⟩ := hstored.of_not_fits hnot
      exact ⟨⟨v, hzero⟩, rfl⟩
  · rw [hchannels k h1 hk, neutralEntry, encodeOrDraw_of_lt _ hw]
    exact ⟨_, rfl⟩
  · rw [neutralDraws_of_lt _ _ hw, clampChannels_toNat] at hstored
    refine ⟨(fillerTicks_withFiller _ _ e).trans hstored.1, fun hfits => ?_, fun hnot => ?_⟩
    · obtain ⟨rfl, rfl⟩ := hstored.of_fits hfits
      exact ⟨hzero, rfl⟩
    · obtain ⟨⟨v, rfl⟩, rfl⟩ := hstored.of_not_fits hnot
      exact ⟨⟨v, hzero⟩, rfl⟩

/-- Settles O18: the two ways G.INIT ends without configuring. -/
theorem initFailureDisables : Obligations.InitFailureDisables := by
  unfold Obligations.InitFailureDisables
  refine fun pol nch per s => ⟨fun hnch => exec_gInit_false pol per s hnch, ?_⟩
  rintro rfl allocOk
  exact exec_gInit_zero allocOk pol per s

/-! ### G.SETW -/

/-- A channel is valid from 1 to NCH (41_generator.md R101). -/
theorem validChannel_iff {g : Gen} {ch : BitVec 4} : validChannel g ch = true ↔ ch ≠ 0 ∧ ch ≤ g.nch :=
  decide_eq_true_iff

/-- A channel other than 0 is not slot 0. -/
theorem channel_toNat_ne_zero {ch : BitVec 4} (h : ch ≠ 0) : ch.toNat ≠ 0 :=
  fun h0 => h (BitVec.eq_of_toNat_eq h0)

/-- A slot that holds a value is a slot of the table. -/
theorem lt_tableSlots_of_get {t : Table} {k : Nat} {o : Option EncodedWidth} (h : t[k]? = some o) :
    k < tableSlots := by
  by_contra hk
  rw [Vector.getElem?_eq_none (Nat.not_lt.mp hk)] at h
  cases h

/-- The pending side after G.SETW's channel entry. -/
theorem setChannel_slot (c : Config) (g : Gen) (n : Nat) {ch : BitVec 4} (width : Micros)
    (hch : ch.toNat < tableSlots) (k : Nat) :
    (setChannel c g n ch width).next[k]? =
      if k = ch.toNat then some (some (encodeOrDraw (widthTicks c width.toNat) n).1) else g.next[k]? := by
  rw [setChannel, writeSlot_get]
  by_cases hk : k = ch.toNat
  · rw [if_pos ⟨hk, hch⟩, if_pos hk]
  · rw [if_neg fun h => hk h.1, if_neg hk]

/-- The pending slots after G.SETW: the filler, the channel's entry, and the others as before. -/
theorem setwState_slots (s : State) {ch : BitVec 4} (width : Micros) (e : EncodedWidth) (n' : Nat)
    (h0 : ch ≠ 0) (hch : ch.toNat < tableSlots) :
    (setwState s ch width e n').gen.next[0]? = some (some e) ∧
      (setwState s ch width e n').gen.next[ch.toNat]? =
        some (some (encodeOrDraw (widthTicks s.cfg width.toNat) s.draws).1) ∧
      ∀ k, k ≠ 0 → k ≠ ch.toNat → (setwState s ch width e n').gen.next[k]? = s.gen.next[k]? := by
  refine ⟨withFiller_slot0 _ e, ?_, fun k hk hkch => ?_⟩
  · refine (withFiller_slot_of_ne _ e (channel_toNat_ne_zero h0)).trans ?_
    rw [setChannel_slot s.cfg s.gen s.draws width hch, if_pos rfl]
  · refine (withFiller_slot_of_ne _ e hk).trans ?_
    rw [setChannel_slot s.cfg s.gen s.draws width hch, if_neg hkch]

/-- G.SETW on a valid channel of an enabled engine completes when the pending channels hold values. -/
theorem exec_gSetw_completes {ch : BitVec 4} (width : Micros) {s : State} (hen : s.gen.en = true)
    (h0 : ch ≠ 0) (hle : ch ≤ s.gen.nch)
    (hslots : ∀ k, 1 ≤ k → k ≤ s.gen.nch.toNat → specified s.gen.next k = true) :
    ch.toNat < tableSlots ∧ ∃ f e n', FillerStored s.cfg (setChannel s.cfg s.gen s.draws ch width)
        (encodeOrDraw (widthTicks s.cfg width.toNat) s.draws).2 f e n' ∧
      exec (.gSetw ch width) s = .next (setwState s ch width e n') := by
  have hch : ch.toNat < tableSlots := by
    have hpos := channel_toNat_ne_zero h0
    obtain ⟨v, hv⟩ := specified_iff.mp (hslots ch.toNat (by omega) (BitVec.le_def.mp hle))
    exact lt_tableSlots_of_get hv
  obtain ⟨f, e, n', hstored⟩ := exists_fillerStored (c := s.cfg)
    (g := setChannel s.cfg s.gen s.draws ch width)
    (encodeOrDraw (widthTicks s.cfg width.toNat) s.draws).2 fun k h1 hk => by
      rw [setChannel_slot s.cfg s.gen s.draws width hch]
      split
      · exact ⟨_, rfl⟩
      · exact specified_iff.mp (hslots k h1 hk)
  exact ⟨hch, f, e, n', hstored, exec_gSetw_of_stored hen (validChannel_iff.mpr ⟨h0, hle⟩) hstored⟩

/-- The count of draws after an entry. -/
theorem encodeOrDraw_draws (t n : Nat) : (encodeOrDraw t n).2 = n + if t ≤ 32752 then 0 else 1 := by
  unfold encodeOrDraw
  split <;> rfl

/-- The count of draws after a filler. -/
theorem FillerStored.draws_eq {c : Config} {g : Gen} {n n' : Nat} {f : Int} {e : EncodedWidth}
    (h : FillerStored c g n f e n') : n' = n + if 0 ≤ f ∧ f ≤ 32752 then 0 else 1 := by
  by_cases hf : 0 ≤ f ∧ f ≤ 32752
  · rw [if_pos hf]
    exact (h.of_fits hf).2
  · rw [if_neg hf]
    exact (h.of_not_fits (by omega)).2

/-- Settles O19: the state G.SETW leaves, by whether width and filler are in the encoder's domain. -/
theorem setwStoresChannelThenFiller : Obligations.SetwStoresChannelThenFiller := by
  unfold Obligations.SetwStoresChannelThenFiller
  intro ch width s w hen h0 hle hslots hw
  obtain rfl : w = widthTicks s.cfg width.toNat := hw
  obtain ⟨hch, f, e, n', hstored, hexec⟩ := exec_gSetw_completes width hen h0 hle hslots
  obtain ⟨hzero, hchannel, hothers⟩ := setwState_slots s width e n' h0 hch
  refine ⟨_, f, hexec, (fillerTicks_withFiller _ _ e).trans hstored.1, rfl, fun hw => ?_, fun hw => ?_,
    fun hfits => ?_, fun hnot => ?_, ?_, hothers⟩
  · rw [hchannel, encodeOrDraw_of_le _ hw]
  · rw [hchannel, encodeOrDraw_of_lt _ hw]
    exact ⟨_, rfl⟩
  · obtain ⟨rfl, -⟩ := hstored.of_fits hfits
    exact hzero
  · obtain ⟨⟨v, rfl⟩, -⟩ := hstored.of_not_fits hnot
    exact ⟨v, hzero⟩
  · rw [← encodeOrDraw_draws]
    exact hstored.draws_eq

/-! ### G.SETW again -/

/-- Tables with equal slots are equal. -/
theorem table_ext {t u : Table} (h : ∀ k : Nat, t[k]? = u[k]?) : t = u :=
  Vector.ext fun k hk => by
    have hkt := h k
    rwa [Vector.getElem?_eq_getElem hk, Vector.getElem?_eq_getElem hk, Option.some_inj] at hkt

/-- A write of the value a slot holds changes nothing. -/
theorem writeSlot_self {t : Table} {i : Nat} {e : EncodedWidth} (h : t[i]? = some (some e)) :
    writeSlot t i e = t :=
  table_ext fun k => by
    rw [writeSlot_get]
    split
    · rename_i hk
      rw [hk.1, h]
    · rfl

/-- A filler stored twice is stored once. -/
theorem withFiller_self {g : Gen} {e : EncodedWidth} (h : g.next[0]? = some (some e)) :
    withFiller g e = g := by
  rw [withFiller, writeSlot_self h]

/-- A channel's entry stored twice is stored once. -/
theorem setChannel_self {c : Config} {g : Gen} {n : Nat} {ch : BitVec 4} {width : Micros}
    (h : g.next[ch.toNat]? = some (some (encodeOrDraw (widthTicks c width.toNat) n).1)) :
    setChannel c g n ch width = g := by
  rw [setChannel, writeSlot_self h]

/-- G.SETW with the values the slots hold leaves the state as an earlier G.SETW left it. -/
theorem setwState_self {u : State} {ch : BitVec 4} {width : Micros} {e : EncodedWidth}
    (hchannel : u.gen.next[ch.toNat]? =
      some (some (encodeOrDraw (widthTicks u.cfg width.toNat) u.draws).1))
    (hzero : u.gen.next[0]? = some (some e)) (hresp : u.resp = some 0) :
    setwState u ch width e u.draws = u := by
  rw [setwState, setChannel_self hchannel, withFiller_self hzero]
  exact State.eq_of_fields rfl rfl rfl rfl hresp.symm rfl

/-- A valid channel whose filler can be computed is a slot of the table. -/
theorem FillerStored.channel_lt {c : Config} {g : Gen} {n n' : Nat} {f : Int} {e : EncodedWidth}
    (h : FillerStored c g n f e n') {ch : BitVec 4} (hvalid : validChannel g ch = true) :
    ch.toNat < tableSlots := by
  obtain ⟨h0, hle⟩ := validChannel_iff.mp hvalid
  have hpos := channel_toNat_ne_zero h0
  have hfill := h.1
  unfold fillerTicks at hfill
  split at hfill
  · cases hfill
  · rename_i a hsum
    obtain ⟨v, hv⟩ := sumDecoded_ok hsum ch.toNat (by omega) (BitVec.le_def.mp hle)
    exact lt_tableSlots_of_get hv

/-- Settles O22: the second G.SETW writes the channel's slot and slot 0 with the values they hold. -/
theorem setwIsIdempotent : Obligations.SetwIsIdempotent := by
  unfold Obligations.SetwIsIdempotent
  intro ch width s t hexec hw hfits
  obtain ⟨hidle, rfl⟩ | ⟨hen, hvalid, f, e, n', hstored, rfl⟩ := exec_gSetw_next hexec
  · exact exec_gSetw_idle width hidle
  have hen' : (setwState s ch width e n').gen.en = true := hen
  have hvalid' : validChannel (setwState s ch width e n').gen ch = true := hvalid
  have hfill : fillerTicks s.cfg (setwState s ch width e n').gen = .ok f :=
    (fillerTicks_withFiller s.cfg _ e).trans hstored.1
  rw [encodeOrDraw_of_le _ hw] at hstored
  obtain ⟨he, rfl⟩ := hstored.of_fits (hfits f hfill)
  obtain ⟨hzero, hchannel, -⟩ := setwState_slots s width e s.draws (validChannel_iff.mp hvalid).1
    (hstored.channel_lt hvalid)
  have hself : setwState (setwState s ch width e s.draws) ch width e s.draws =
      setwState s ch width e s.draws := setwState_self hchannel hzero rfl
  have hagain : FillerStored s.cfg
      (setChannel s.cfg (setwState s ch width e s.draws).gen s.draws ch width)
      (encodeOrDraw (widthTicks s.cfg width.toNat) s.draws).2 f e s.draws := by
    rw [setChannel_self hchannel, encodeOrDraw_of_le _ hw]
    exact ⟨hfill, hstored.2⟩
  exact (exec_gSetw_of_stored hen' hvalid' hagain).trans (congrArg _ hself)

/-! ### A disabled block -/

/-- With the toggle off the comparator leaves the generator as it is. -/
theorem togglePin_of_off {g : Gen} (h : g.tog = false) : togglePin g = g := by
  rw [togglePin, h, if_neg Bool.false_ne_true, ← h]

/-- A decoder that is detached hears no edge. -/
theorem Dec.edge_of_detached {x : Dec} (line : BitVec 8) (ts : Micros) (h : x.att = false) :
    x.edge line ts = x :=
  if_neg fun hhears => by simp [(Dec.hears_iff.mp hhears).1] at h

/-- Settles O23: each rule of the block ends at its enable. -/
theorem disabledBlockIsIdle : Obligations.DisabledBlockIsIdle := by
  unfold Obligations.DisabledBlockIsIdle
  refine fun s => ⟨fun hen ch width => exec_gSetw_idle width (.inl hen), fun hcie htog => ⟨?_, ?_⟩,
    fun hdet line ts => ?_⟩
  · rw [exec_gCmatch, compareMatch_off hcie, togglePin_of_off htog, onGen_ok]
    rfl
  · by_cases hdue : MatchDue s.gen
    · rw [exec_gTick_of_due hdue, compareMatch_off (g := s.gen.withCnt (s.gen.cnt + 1)) hcie,
        togglePin_of_off (g := s.gen.withCnt (s.gen.cnt + 1)) htog, onGen_ok]
      rfl
    · rw [exec_gTick_of_not_due hdue]
      rfl
  · have hdec : s.dec.map (fun x => x.edge line ts) = s.dec :=
      (List.map_congr_left fun x hx => Dec.edge_of_detached line ts (hdet x hx)).trans (List.map_id' _)
    simp only [exec, execDEdge, State.mapDec, hdec, State.respond]

/-! ### The pending set -/

/-- Slot 0 holds the encoding of the filler, where the engine is enabled and the filler is in the
encoder's domain. -/
def Consistent (c : Config) (g : Gen) : Prop :=
  g.en = true → ∀ f, fillerTicks c g = .ok f → fillerFits f = true →
    g.next[0]? = some (some (encodeTicks f.toNat))

/-- A filler just stored is consistent. -/
theorem FillerStored.consistent {c : Config} {g : Gen} {n n' : Nat} {f : Int} {e : EncodedWidth}
    (h : FillerStored c g n f e n') {f' : Int} (hf' : fillerTicks c (withFiller g e) = .ok f')
    (hfit : fillerFits f' = true) : (withFiller g e).next[0]? = some (some (encodeTicks f'.toNat)) := by
  rw [fillerTicks_withFiller, h.1] at hf'
  cases hf'
  rw [withFiller_slot0, (h.of_fits (fillerFits_iff.mp hfit)).1]

/-- Every step of the generator keeps the pending set consistent: it stores the filler, disables the
engine, or leaves the pending side and what the filler is computed from alone. -/
theorem GenStep.consistent {c : Config} {i : Instr} {g g' : Gen} (h : GenStep c g i g')
    (hc : Consistent c g) : Consistent c g' := by
  cases h with
  | initFailed => exact fun hen => Bool.noConfusion hen
  | init pol nch per hnch hstored => exact fun _ _ hf hfit => hstored.consistent hf hfit
  | setw ch width hen hvalid hstored => exact fun _ _ hf hfit => hstored.consistent hf hfit
  | _ => exact hc

/-- Settles O36: a step is an event, and an event's effect on the generator keeps the pending set
consistent. -/
theorem pendingSetStaysConsistent : Obligations.PendingSetStaysConsistent := by
  unfold Obligations.PendingSetStaysConsistent
  intro s t hs hstep
  obtain ⟨r, hr⟩ | ⟨i, rest, -, hexec⟩ := step_cases s
  · rw [hr] at hstep
    cases hstep
  · rw [hexec] at hstep
    have hkept : Consistent s.cfg t.gen := (exec_genStep hstep).consistent hs
    have hcfg : t.cfg = s.cfg := exec_cfg (s := { s with events := rest }) hstep
    rw [← hcfg] at hkept
    exact hkept

end Sys2Proof.Machine
end

section
/-! PROOFS. The invariant (10_state.md section 7): the reset state meets it, every event keeps it, and
under it every admitted event completes and no step faults. -/

namespace Sys2Proof.Machine

/-! ### Reset -/

/-- Settles O54: the reset state is built from these values. -/
theorem resetStateHoldsItsValues : Obligations.ResetStateHoldsItsValues := by
  unfold Obligations.ResetStateHoldsItsValues
  refine ⟨fun c => ⟨rfl, List.length_replicate, fun x hx => ?_, rfl⟩, rfl⟩
  exact (List.eq_of_mem_replicate hx : x = Dec.reset)

/-- The sentinel is a legal cursor. -/
theorem cursorOk_invalid : CursorOk widxInvalid := .inr rfl

/-- A decoder at reset is good. -/
theorem decOk_reset : DecOk Dec.reset :=
  ⟨cursorOk_invalid, cursorOk_invalid, fun h => h⟩

/-- The reset state of a configuration in range meets the invariant: the engine is disabled, so no table
entry has to hold a value. -/
theorem inv_resetOf {c : Config} (h : c.wf = true) : Inv (State.resetOf c) := by
  refine ⟨⟨h, List.length_replicate⟩, ?ranges, ?controls, fun hen => Bool.noConfusion hen, fun x hx => ?decoders⟩
  case ranges => exact (by decide : RangesOk Gen.reset)
  case controls => exact (by decide : ControlsOk Gen.reset)
  case decoders =>
    obtain rfl := List.eq_of_mem_replicate hx
    exact decOk_reset

/-- Settles O55: for any configuration in range, and so for the reference configuration. -/
theorem resetMeetsTheInvariant : Obligations.ResetMeetsTheInvariant := by
  unfold Obligations.ResetMeetsTheInvariant
  exact ⟨fun c => inv_resetOf, inv_resetOf (by decide)⟩

/-! ### The generator's part of the invariant -/

/-- The part of the invariant that speaks of the generator. -/
structure GenOk (g : Gen) : Prop where
  ranges : RangesOk g
  controls : ControlsOk g
  tables : TablesOk g

section
variable {c : Config} {i : Instr} {g g' : Gen}

/-- A slot number below 15 has a successor. -/
theorem slot_succ {v : BitVec 4} (h : v.toNat < 15) : (v + 1).toNat = v.toNat + 1 := by
  have hone : (1 : BitVec 4).toNat = 1 := rfl
  rw [BitVec.toNat_add, hone]
  omega

/-- With AIDX below NCH the next slot is loaded. -/
theorem not_lastSlot_of_lt (h : g.aidx.toNat + 1 ≤ g.nch.toNat) :
    (g.aidx + 1).toNat = g.aidx.toNat + 1 ∧ ¬ LastSlot g := by
  have hnch := g.nch.isLt
  have hsucc := slot_succ (v := g.aidx) (by omega)
  refine ⟨hsucc, ?_⟩
  rw [LastSlot, BitVec.lt_def, hsucc]
  omega

/-- With AIDX at NCH the pending set is committed. -/
theorem lastSlot_of_eq (h : g.aidx = g.nch) (hnch : g.nch.toNat < 15) : LastSlot g := by
  rw [LastSlot, h, BitVec.lt_def, slot_succ hnch]
  exact Nat.lt_succ_self _

/-- Within the ranges, HeaderStep commits exactly with AIDX at NCH. -/
theorem lastSlot_iff (h : RangesOk g) : LastSlot g ↔ g.aidx = g.nch := by
  obtain ⟨-, hnch, -, -, haidx⟩ := h
  simp only [maxCh] at hnch
  refine ⟨fun hlast => ?_, fun h => lastSlot_of_eq h (by omega)⟩
  by_contra hne
  have hlt : g.aidx.toNat ≠ g.nch.toNat := fun h => hne (BitVec.eq_of_toNat_eq h)
  exact (not_lastSlot_of_lt (by omega)).2 hlast

/-- The slot after AIDX, where there is one, is at most NCH. -/
theorem next_aidx_le (h : ¬ LastSlot g) : (g.aidx + 1).toNat ≤ g.nch.toNat :=
  BitVec.le_def.mp (BitVec.not_lt.mp h)

/-- Every step keeps the ranges of NCH, PERIOD_US and AIDX. -/
theorem GenStep.ranges (h : GenStep c g i g') (hr : RangesOk g) : RangesOk g' := by
  obtain ⟨hnch, hnch', hper, hper', -⟩ := id hr
  cases h with
  | init pol nch per h0 hstored =>
    have hpos := channel_toNat_ne_zero h0
    have hn : (clampChannels nch).toNat = min nch.toNat 8 := clampChannels_toNat nch
    have hp : (clampPeriod per).toNat = min (max per.toNat 10000) 40000 := clampPeriod_toNat per
    exact ⟨(by omega : 1 ≤ (clampChannels nch).toNat), (by omega : (clampChannels nch).toNat ≤ 8),
      (by omega : 10000 ≤ (clampPeriod per).toNat), (by omega : (clampPeriod per).toNat ≤ 40000),
      Nat.le_refl _⟩
  | commit => exact ⟨hnch, hnch', hper, hper', Nat.zero_le _⟩
  | load _ _ _ hlast => exact ⟨hnch, hnch', hper, hper', next_aidx_le hlast⟩
  | _ => exact hr

/-- Every step keeps the handler enabled exactly with the engine, and the pin toggling in the Header
phase. -/
theorem GenStep.controls (h : GenStep c g i g') (hc : ControlsOk g) : ControlsOk g' := by
  obtain ⟨hcie, htog, -⟩ := id hc
  cases h with
  | initFailed => exact ⟨rfl, fun h => Bool.noConfusion h, fun h => Bool.noConfusion h⟩
  | init => exact ⟨rfl, fun _ => rfl, fun _ _ => rfl⟩
  | commit => exact ⟨hcie, htog, fun _ h => Phase.noConfusion h⟩
  | load => exact ⟨hcie, htog, fun _ h => Phase.noConfusion h⟩
  | tail hm hon hphase =>
    refine ⟨hcie, fun _ => hcie.symm.trans hon, fun _ hheader => ?_⟩
    rw [tailStep_phase] at hheader
    rw [tailStep_tog]
    by_contra hdone
    rw [if_neg hdone] at hheader
    exact Phase.noConfusion (hphase.symm.trans hheader)
  | _ => exact hc

/-- The slots a commit copies hold values. -/
theorem filledTo_of_copied {cur' : Table} (h : Copied g cur') : FilledTo cur' g.nch.toNat := by
  intro k hk
  obtain ⟨hcopied, -⟩ := copySlots_ok h
  obtain ⟨hslot, e, he⟩ := hcopied k (by omega)
  exact specified_iff.mpr ⟨e, hslot.trans he⟩

/-- Storing the filler fills slot 0 and keeps the others. -/
theorem filledTo_withFiller {e : EncodedWidth} {n : Nat}
    (h : ∀ k, 1 ≤ k → k ≤ n → specified g.next k = true) : FilledTo (withFiller g e).next n := by
  intro k hk
  rcases Nat.eq_zero_or_pos k with rfl | hpos
  · exact specified_iff.mpr ⟨e, withFiller_slot0 g e⟩
  · rw [specified_iff, withFiller_slot_of_ne g e (by omega)]
    exact specified_iff.mp (h k hpos hk)

/-- A written slot holds a value and every other one what it held. -/
theorem specified_writeSlot {t : Table} {j k : Nat} {e : EncodedWidth} (h : specified t k = true) :
    specified (writeSlot t j e) k = true := by
  rw [specified_iff, writeSlot_get]
  split
  · exact ⟨e, rfl⟩
  · exact specified_iff.mp h

/-- Every step keeps the slots that a rule can read holding values. -/
theorem GenStep.tables (h : GenStep c g i g') (hg : GenOk g) : TablesOk g' := by
  obtain ⟨hr, hc, ht⟩ := hg
  cases h with
  | initFailed => exact fun hen => Bool.noConfusion hen
  | @init n m n' f e pol nch per h0 hstored =>
    exact fun _ => ⟨filledTo_withFiller fun k h1 hk =>
      specified_iff.mpr ⟨_, initTable_channels c g n pol nch per h1 hk⟩, fun hb => absurd ⟨rfl, rfl⟩ hb⟩
  | setw ch width hen hvalid hstored =>
    obtain ⟨hnext, hcur⟩ := ht hen
    exact fun _ => ⟨filledTo_withFiller fun k _ hk => specified_writeSlot (hnext k hk), hcur⟩
  | commit hm hcie hphase hlast hcopy he =>
    exact fun hen => ⟨(ht hen).1, fun _ => filledTo_of_copied (g := g) hcopy⟩
  | load hm hcie hphase hlast he =>
    exact fun hen => ⟨(ht hen).1, fun _ => (ht hen).2 fun hb => hlast ((lastSlot_iff hr).mpr hb.2)⟩
  | tail hm hcie hphase =>
    exact fun hen => ⟨(ht hen).1, fun _ => (ht hen).2 fun hb => Phase.noConfusion (hphase.symm.trans hb.1)⟩
  | _ => exact ht

/-- Every step keeps the generator's part of the invariant. -/
theorem GenStep.genOk (h : GenStep c g i g') (hg : GenOk g) : GenOk g' :=
  ⟨h.ranges hg.ranges, h.controls hg.controls, h.tables hg⟩

end

/-! ### A decoder's part of the invariant -/

/-- A cursor with room advances by one. -/
theorem cursor_succ {v : BitVec 8} (h : v.toNat < 9) : (v + 1).toNat = v.toNat + 1 := by
  have hone : (1 : BitVec 8).toNat = 1 := rfl
  rw [BitVec.toNat_add, hone]
  omega

/-- Every event keeps a decoder good. -/
theorem Dec.after_ok (i : Instr) (k : Nat) {x : Dec} (h : DecOk x) : DecOk (x.after i k) := by
  obtain ⟨hwidx, hccnt, hbound⟩ := id h
  cases i with
  | dAttach d slotOk line =>
    simp only [Dec.after]
    split
    · exact ⟨cursorOk_invalid, cursorOk_invalid, fun hatt => hatt⟩
    · exact h
  | dEdge line ts =>
    simp only [Dec.after]
    obtain ⟨-, he⟩ | ⟨-, -, he⟩ | ⟨-, -, hroom, he⟩ | ⟨-, -, -, he⟩ := x.edge_cases line ts
    all_goals rw [he]
    · exact h
    · exact ⟨.inl (Nat.zero_le _), hwidx, hbound⟩
    · have hlt : x.widx.toNat < 9 := of_decide_eq_true hroom
      have hsucc : (x.widx + 1).toNat ≤ 9 := by
        rw [cursor_succ hlt]
        omega
      exact ⟨.inl hsucc, hccnt, hbound⟩
    · exact h
  | dIssync d m =>
    simp only [Dec.after]
    split <;> exact h
  | dSuspend d =>
    simp only [Dec.after]
    split
    · exact ⟨cursorOk_invalid, hccnt, fun hatt => Bool.noConfusion hatt⟩
    · exact h
  | dResume d now =>
    simp only [Dec.after]
    split
    · exact ⟨hwidx, hccnt, fun hatt => hatt⟩
    · exact h
  | _ => exact h

/-! ### Every event keeps the invariant -/

/-- The invariant in its three parts. -/
theorem inv_iff {s : State} : Inv s ↔ ConfigOk s ∧ GenOk s.gen ∧ ∀ x ∈ s.dec, DecOk x :=
  ⟨fun ⟨hcfg, hr, hc, ht, hdec⟩ => ⟨hcfg, ⟨hr, hc, ht⟩, hdec⟩,
    fun ⟨hcfg, ⟨hr, hc, ht⟩, hdec⟩ => ⟨hcfg, hr, hc, ht, hdec⟩⟩

/-- An event that completes keeps the invariant. -/
theorem exec_inv {i : Instr} {s t : State} (hinv : Inv s) (h : exec i s = .next t) : Inv t := by
  obtain ⟨⟨hwf, hlen⟩, hgen, hdec⟩ := inv_iff.mp hinv
  refine inv_iff.mpr ⟨⟨?_, ?_⟩, (exec_genStep h).genOk hgen, fun y hy => ?_⟩
  · rw [exec_cfg h]
    exact hwf
  · rw [exec_cfg h, exec_dec_length h]
    exact hlen
  · rw [exec_dec h, List.mem_mapIdx] at hy
    obtain ⟨k, hk, rfl⟩ := hy
    exact Dec.after_ok i k (hdec _ (List.getElem_mem hk))

/-- The events still to come are no part of the invariant. -/
theorem inv_events {s : State} (h : Inv s) (l : List EventWord) : Inv { s with events := l } := h

/-- Settles O56: a step is an event, and each event keeps each part of the invariant. -/
theorem stepKeepsTheInvariant : Obligations.StepKeepsTheInvariant := by
  unfold Obligations.StepKeepsTheInvariant
  intro s t hinv hstep
  obtain ⟨r, hr⟩ | ⟨i, rest, -, hexec⟩ := step_cases s
  · rw [hr] at hstep
    cases hstep
  · rw [hexec] at hstep
    exact exec_inv (inv_events hinv rest) hstep

/-! ### Every admitted event completes -/

/-- Under the invariant a compare match completes: each slot it reads holds a value. -/
theorem compareMatch_completes (c : Config) {g : Gen} (hg : GenOk g) : ∃ g', compareMatch c g = .ok g' := by
  obtain ⟨hr, ⟨hcie, -, -⟩, ht⟩ := hg
  cases hon : g.cie with
  | false => exact ⟨_, compareMatch_off hon⟩
  | true =>
    obtain ⟨hnext, hcur⟩ := ht (hcie.symm.trans hon)
    cases hphase : g.phase with
    | tail => exact ⟨_, compareMatch_tail c hon hphase⟩
    | header =>
      by_cases hlast : LastSlot g
      · obtain ⟨cur', hcopy⟩ := copySlots_exists (cur := g.cur) (k := g.nch.toNat + 1)
          fun k hk => specified_iff.mp (hnext k (by omega))
        obtain ⟨e, he⟩ := specified_iff.mp (filledTo_of_copied hcopy 0 (Nat.zero_le _))
        exact ⟨_, compareMatch_commit hon hphase hlast hcopy he⟩
      · have hb : ¬ AtBoundary g := fun hb => hlast ((lastSlot_iff hr).mpr hb.2)
        obtain ⟨e, he⟩ := specified_iff.mp (hcur hb _ (next_aidx_le hlast))
        exact ⟨_, compareMatch_load hon hphase hlast he⟩

/-- Under the invariant G.SETW completes. -/
theorem exec_gSetw_completes_of_inv {s : State} (hg : GenOk s.gen) (ch : BitVec 4) (width : Micros) :
    ∃ t, exec (.gSetw ch width) s = .next t := by
  cases hen : s.gen.en with
  | false => exact ⟨_, exec_gSetw_idle width (.inl hen)⟩
  | true =>
    cases hvalid : validChannel s.gen ch with
    | false => exact ⟨_, exec_gSetw_idle width (.inr hvalid)⟩
    | true =>
      obtain ⟨h0, hle⟩ := validChannel_iff.mp hvalid
      obtain ⟨-, f, e, n', -, hexec⟩ := exec_gSetw_completes width hen h0 hle
        fun k _ hk => (hg.tables hen).1 k hk
      exact ⟨_, hexec⟩

/-- An operation on a decoder that is present completes. -/
theorem onDec_completes {s : State} {d : BitVec 3} (f : Dec → Dec × Int) (h : d.toNat < s.dec.length) :
    ∃ t, onDec s d f = .next t :=
  ⟨_, onDec_some (List.getElem?_eq_getElem h)⟩

/-- Under the invariant every event that names a present decoder completes, but for G.INIT with channel
count 0. -/
theorem exec_completes_of_inv {i : Instr} {s : State} (hinv : Inv s) (hwf : i.wf s.cfg.ndec = true)
    (hzero : ∀ a pol per, i ≠ .gInit a pol 0 per) : ∃ t, exec i s = .next t := by
  obtain ⟨⟨-, hlen⟩, hgen, -⟩ := inv_iff.mp hinv
  have hpresent : ∀ d, i.inst? = some d → d.toNat < s.dec.length := by
    intro d hd
    simp only [Instr.wf, hd, decide_eq_true_eq] at hwf
    exact hlen ▸ hwf
  cases i with
  | tUs2t us => exact ⟨_, rfl⟩
  | gInit a pol nch per =>
    have hnch : nch ≠ 0 := fun h => hzero a pol per (by rw [h])
    cases a with
    | false => exact ⟨_, exec_gInit_false pol per s hnch⟩
    | true =>
      obtain ⟨f, e, n', -, hexec⟩ := exec_gInit_completes pol per s hnch
      exact ⟨_, hexec⟩
  | gSetw ch width => exact exec_gSetw_completes_of_inv hgen ch width
  | gPoll m => exact ⟨_, rfl⟩
  | gCmatch =>
    obtain ⟨g', hg⟩ := compareMatch_completes s.cfg hgen
    exact ⟨_, by rw [exec_gCmatch, hg, onGen_ok]⟩
  | gTick =>
    by_cases hdue : MatchDue s.gen
    · obtain ⟨g', hg⟩ := compareMatch_completes s.cfg (g := s.gen.withCnt (s.gen.cnt + 1))
        ⟨hgen.ranges, hgen.controls, hgen.tables⟩
      exact ⟨_, by rw [exec_gTick_of_due hdue, hg, onGen_ok]⟩
    · exact ⟨_, exec_gTick_of_not_due hdue⟩
  | dAttach d slotOk line => exact onDec_completes _ (hpresent d rfl)
  | dEdge line ts => exact ⟨_, rfl⟩
  | dNb d => exact onDec_completes _ (hpresent d rfl)
  | dWidth d ch => exact onDec_completes _ (hpresent d rfl)
  | dPeriod d => exact onDec_completes _ (hpresent d rfl)
  | dIssync d m => exact onDec_completes _ (hpresent d rfl)
  | dSuspend d => exact onDec_completes _ (hpresent d rfl)
  | dResume d now => exact onDec_completes _ (hpresent d rfl)
  | tEnc ticks => exact ⟨_, rfl⟩
  | tDec ew => exact ⟨_, rfl⟩

/-- Settles O58: the event completes, and a completed event keeps the invariant. -/
theorem everyAdmittedEventCompletes : Obligations.EveryAdmittedEventCompletes := by
  unfold Obligations.EveryAdmittedEventCompletes
  intro i s hinv hwf hzero
  obtain ⟨t, ht⟩ := exec_completes_of_inv hinv hwf hzero
  exact ⟨t, ht, exec_inv hinv ht⟩

/-- Settles O57: a decoded event is well formed, so it completes, but for G.INIT with channel count 0,
which is refused. -/
theorem noUnspecifiedEntryIsRead : Obligations.NoUnspecifiedEntryIsRead := by
  unfold Obligations.NoUnspecifiedEntryIsRead
  intro s f hinv hfault
  obtain ⟨r, hr⟩ | ⟨i, rest, hwf, hexec⟩ := step_cases s
  · rw [hr] at hfault
    cases hfault
  rw [hexec] at hfault
  by_cases hzero : ∃ a pol per, i = .gInit a pol 0 per
  · obtain ⟨a, pol, per, rfl⟩ := hzero
    rw [exec_gInit_zero] at hfault
    cases hfault
  · obtain ⟨t, ht⟩ := exec_completes_of_inv (inv_events hinv rest) hwf
      fun a pol per h => hzero ⟨a, pol, per, h⟩
    rw [ht] at hfault
    cases hfault

end Sys2Proof.Machine
end

section
/-! PROOFS. The one-shot property of the registry (43_registry.md R163): a polled bit stays clear until
the next signal, and a signalled bit is answered by the first poll of it. -/

namespace Sys2Proof.Machine

/-! ### What a run keeps -/

/-- What each event that is not `bad` keeps, a run that avoids them keeps. -/
theorem runEvents_keeps {bad : Instr → State → Bool} {P : State → Prop}
    (hstep : ∀ i s t, exec i s = .next t → bad i s = false → P s → P t) {l : List Instr} {s u : State}
    (hrun : runEvents l s = some u) (havoid : avoids bad l s = true) (hs : P s) : P u := by
  induction l generalizing s with
  | nil => cases hrun; exact hs
  | cons i l ih =>
    obtain ⟨t, hexec, hrest⟩ := runEvents_cons_some.mp hrun
    rw [avoids_cons hexec, Bool.and_eq_true, Bool.not_eq_true'] at havoid
    exact ih hrest havoid.2 (hstep i s t hexec havoid.1 hs)

/-- What each event of the list keeps in any state, the run keeps. -/
theorem runEvents_keeps_of_mem {P : State → Prop} {l : List Instr} {s u : State}
    (hstep : ∀ i ∈ l, ∀ s t, exec i s = .next t → P s → P t) (hrun : runEvents l s = some u) (hs : P s) :
    P u := by
  induction l generalizing s with
  | nil => cases hrun; exact hs
  | cons i l ih =>
    obtain ⟨hi, hl⟩ := List.forall_mem_cons.mp hstep
    obtain ⟨t, hexec, hrest⟩ := runEvents_cons_some.mp hrun
    exact ih hl hrest (hi s t hexec hs)

/-! ### The signals -/

/-- The generator's flags are signalled by a compare match of the running handler at the last slot. -/
theorem commitsAt_iff {i : Instr} {s : State} : commitsAt i s = true ↔
    (∃ n, MatchAt i s.gen n) ∧ s.gen.cie = true ∧ s.gen.phase = .header ∧ LastSlot s.gen := by
  rw [commitsAt, decide_eq_true_iff]
  refine and_congr ⟨?_, ?_⟩ Iff.rfl
  · rintro (rfl | ⟨rfl, hdue⟩)
    · exact ⟨_, .inl ⟨rfl, rfl⟩⟩
    · exact ⟨_, .inr ⟨rfl, hdue, rfl⟩⟩
  · rintro ⟨n, ⟨rfl, -⟩ | ⟨rfl, hdue, -⟩⟩
    · exact .inl rfl
    · exact .inr ⟨rfl, hdue⟩

/-- The event of a signal raises every flag. -/
theorem GenStep.sync_of_commit {c : Config} {i : Instr} {g g' : Gen} {n : Count8} (h : GenStep c g i g')
    (hm : MatchAt i g n) (hcie : g.cie = true) (hphase : g.phase = .header) (hlast : LastSlot g) :
    g'.sync = 0xFF := by
  have hagent := hm.agent_eq
  cases h with
  | other hpart =>
    obtain ⟨rfl, -⟩ | ⟨rfl, -⟩ := hm <;> exact absurd rfl hpart
  | count hnot =>
    obtain ⟨h, -⟩ | ⟨-, hdue, -⟩ := hm
    · cases h
    · exact absurd hdue hnot
  | off _ hoff => exact Bool.noConfusion (hcie.symm.trans hoff)
  | commit => rfl
  | load _ _ _ hnot => exact absurd hlast hnot
  | tail _ _ htail => exact Phase.noConfusion (hphase.symm.trans htail)
  | _ => cases hagent

/-- A decoder's flags are signalled by an edge that it hears and that closes a synchro gap. -/
theorem synchroAt_iff {d : Nat} {i : Instr} {s : State} {x : Dec} (hx : s.dec[d]? = some x) :
    synchroAt d i s = true ↔ ∃ line ts, i = .dEdge line ts ∧ x.hears line = true ∧ x.isSync ts = true := by
  cases i with
  | dEdge line ts =>
    simp only [synchroAt, hx, decide_eq_true_iff, Instr.dEdge.injEq, Dec.hears_iff, Dec.isSync_iff,
      syncThresholdUs, tsMod]
    exact ⟨fun ⟨hatt, hline, hgap⟩ => ⟨line, ts, ⟨rfl, rfl⟩, ⟨hatt, hline⟩, hgap⟩,
      fun ⟨_, _, ⟨rfl, rfl⟩, ⟨hatt, hline⟩, hgap⟩ => ⟨hatt, hline, hgap⟩⟩
  | _ => simp [synchroAt]

/-! ### A polled bit -/

/-- Bit `b` of decoder `d`'s flags is `v`. -/
def FlagIs (d : BitVec 3) (b : Nat) (v : Bool) (s : State) : Prop :=
  ∃ x, s.dec[d.toNat]? = some x ∧ x.sync.getLsbD b = v

/-- Without a commit a clear bit of the generator's flags stays clear. -/
theorem exec_bit_stays_clear {b : Nat} (i : Instr) (s t : State) (h : exec i s = .next t)
    (hno : commitsAt i s = false) (hb : s.gen.sync.getLsbD b = false) : t.gen.sync.getLsbD b = false := by
  obtain hsync | ⟨m, -, hsync⟩ | ⟨-, -, -, -, hsync⟩ | ⟨hm, hcie, hphase, hlast, -⟩ :=
    (exec_genStep h).sync_cases
  · rw [hsync, hb]
  · rw [hsync, getLsbD_pollRest, hb, Bool.false_and]
  · rw [hsync, getLsbD_noFlags]
  · rw [commitsAt_iff.mpr ⟨hm, hcie, hphase, hlast⟩] at hno
    cases hno

/-- Without a synchro edge that it hears, a clear bit of a decoder's flags stays clear. -/
theorem exec_flag_stays_clear {b : Nat} {d : BitVec 3} (i : Instr) (s t : State) (h : exec i s = .next t)
    (hno : synchroAt d.toNat i s = false) (hb : FlagIs d b false s) : FlagIs d b false t := by
  obtain ⟨x, hx, hb⟩ := hb
  refine ⟨x.after i d.toNat, by rw [exec_getElem?_dec h, hx, Option.map_some], ?_⟩
  obtain hsync | ⟨-, m, -, -, hsync⟩ | ⟨-, -, -, -, -, hsync⟩ | ⟨line, ts, hi, hhears, hgap, -⟩ :=
    x.after_sync_cases i d.toNat
  · rw [hsync, hb]
  · rw [hsync, getLsbD_pollRest, hb, Bool.false_and]
  · rw [hsync, getLsbD_noFlags]
  · rw [(synchroAt_iff hx).mpr ⟨line, ts, hi, hhears, hgap⟩] at hno
    cases hno

/-- G.POLL answers bit `b` as it is set and asked for. -/
theorem exec_gPoll_bit (m : FlagSet) (b : Nat) (u : State) :
    ∃ (v : State) (r : FlagSet), exec (.gPoll m) u = .next v ∧ v.resp = some (r.toNat : Int) ∧
      r.getLsbD b = (u.gen.sync.getLsbD b && m.getLsbD b) :=
  ⟨_, u.gen.sync &&& m, exec_gPoll m u, rfl, BitVec.getLsbD_and⟩

/-- D.ISSYNC answers bit `b` as it is set and asked for. -/
theorem exec_dIssync_bit {d : BitVec 3} (m : FlagSet) {b : Nat} {v : Bool} {u : State} (h : FlagIs d b v u) :
    ∃ (w : State) (r : FlagSet), exec (.dIssync d m) u = .next w ∧ w.resp = some (r.toNat : Int) ∧
      r.getLsbD b = (v && m.getLsbD b) := by
  obtain ⟨x, hx, rfl⟩ := h
  exact ⟨_, x.sync &&& m, exec_dIssync hx, rfl, BitVec.getLsbD_and⟩

/-- Settles O25: a poll clears the bit, every event but a signal keeps it clear, and a poll answers what
it finds. -/
theorem polledBitStaysClearUntilSignal : Obligations.PolledBitStaysClearUntilSignal := by
  unfold Obligations.PolledBitStaysClearUntilSignal
  refine fun b m l s t u hm hrun => ⟨fun hpoll havoid => ?generator, fun d hpoll havoid => ?decoder⟩
  case generator =>
    have hclear : t.gen.sync.getLsbD b = false := by
      cases hpoll
      exact (getLsbD_pollRest s.gen.sync m b).trans (by rw [hm, Bool.not_true, Bool.and_false])
    have hkept := runEvents_keeps (P := fun s => s.gen.sync.getLsbD b = false) exec_bit_stays_clear hrun
      havoid hclear
    refine ⟨hkept, fun m' => ?_⟩
    obtain ⟨v, r, hexec, hresp, hr⟩ := exec_gPoll_bit m' b u
    exact ⟨v, r, hexec, hresp, by rw [hr, hkept, Bool.false_and]⟩
  case decoder =>
    have hclear : FlagIs d b false t := by
      obtain ⟨x, hx, -⟩ := onDec_next hpoll
      refine ⟨_, by rw [exec_getElem?_dec hpoll, hx, Option.map_some], ?_⟩
      rw [Dec.after, if_pos rfl, getLsbD_pollRest, hm, Bool.not_true, Bool.and_false]
    have hkept := runEvents_keeps (P := FlagIs d b false) exec_flag_stays_clear hrun havoid hclear
    obtain ⟨y, hy, hbit⟩ := id hkept
    refine ⟨y, hy, hbit, fun m' => ?_⟩
    obtain ⟨v, r, hexec, hresp, hr⟩ := exec_dIssync_bit m' hkept
    exact ⟨v, r, hexec, hresp, by rw [hr, Bool.false_and]⟩

/-! ### A signalled bit -/

/-- Without a poll of it and without a G.INIT that has its table, a set bit of the generator's flags stays
set. -/
theorem exec_bit_stays_set {b : Nat} (hb : b < 8) {i : Instr} (hpoll : ∀ m, i = .gPoll m → m.getLsbD b = false)
    (hinit : ∀ pol nch per, i ≠ .gInit true pol nch per) {s t : State} (h : exec i s = .next t)
    (hset : s.gen.sync.getLsbD b = true) : t.gen.sync.getLsbD b = true := by
  obtain hsync | ⟨m, hi, hsync⟩ | ⟨pol, nch, per, hi, -⟩ | ⟨-, -, -, -, hsync⟩ := (exec_genStep h).sync_cases
  · rw [hsync, hset]
  · rw [hsync, getLsbD_pollRest, hset, hpoll m hi, Bool.not_false, Bool.and_true]
  · exact absurd hi (hinit pol nch per)
  · rw [hsync, getLsbD_signal hb]

/-- Without a poll of it and without an attach, a set bit of a decoder's flags stays set. -/
theorem exec_flag_stays_set {b : Nat} (hb : b < 8) {d : BitVec 3} {i : Instr}
    (hpoll : ∀ m, i = .dIssync d m → m.getLsbD b = false)
    (hattach : ∀ slotOk line, i ≠ .dAttach d slotOk line) {s t : State} (h : exec i s = .next t)
    (hset : FlagIs d b true s) : FlagIs d b true t := by
  obtain ⟨x, hx, hset⟩ := hset
  refine ⟨x.after i d.toNat, by rw [exec_getElem?_dec h, hx, Option.map_some], ?_⟩
  obtain hsync | ⟨d', m, hi, hd, hsync⟩ | ⟨d', slotOk, line, hi, hd, -⟩ | ⟨-, -, -, -, -, hsync⟩ :=
    x.after_sync_cases i d.toNat
  · rw [hsync, hset]
  · obtain rfl := BitVec.eq_of_toNat_eq hd
    rw [hsync, getLsbD_pollRest, hset, hpoll m hi, Bool.not_false, Bool.and_true]
  · obtain rfl := BitVec.eq_of_toNat_eq hd
    exact absurd hi (hattach slotOk line)
  · rw [hsync, getLsbD_signal hb]

/-- A synchro edge that a decoder hears raises its flags. -/
theorem exec_synchro_sets {b : Nat} (hb : b < 8) {d : BitVec 3} {i : Instr} {s t : State}
    (h : exec i s = .next t) (hsync : synchroAt d.toNat i s = true) : FlagIs d b true t := by
  rcases hx : s.dec[d.toNat]? with _ | x
  · cases i <;> simp [synchroAt, hx] at hsync
  obtain ⟨line, ts, rfl, hhears, hgap⟩ := (synchroAt_iff hx).mp hsync
  refine ⟨_, by rw [exec_getElem?_dec h, hx, Option.map_some], ?_⟩
  rw [Dec.after, Dec.edge, if_pos hhears, Dec.onEdge, if_pos hgap]
  exact getLsbD_signal hb

/-- Settles O60: a signal sets the bit, every event but a poll of it or a reset of the set keeps it set,
and the poll answers what it finds. -/
theorem firstPollAfterSignalReturnsTheBit : Obligations.FirstPollAfterSignalReturnsTheBit := by
  unfold Obligations.FirstPollAfterSignalReturnsTheBit
  refine fun b i l s t u hb hexec hrun => ⟨fun hcommit hpoll hinit m hm => ?generator,
    fun d hsync hpoll hattach m hm => ?decoder⟩
  case generator =>
    obtain ⟨⟨n, hmatch⟩, hcie, hphase, hlast⟩ := commitsAt_iff.mp hcommit
    have hset : t.gen.sync.getLsbD b = true := by
      rw [(exec_genStep hexec).sync_of_commit hmatch hcie hphase hlast, getLsbD_signal hb]
    have hkept := runEvents_keeps_of_mem (P := fun s => s.gen.sync.getLsbD b = true)
      (fun j hj s t => exec_bit_stays_set hb (fun m h => hpoll m (h ▸ hj))
        fun pol nch per h => hinit pol nch per (h ▸ hj)) hrun hset
    obtain ⟨v, r, hv, hresp, hr⟩ := exec_gPoll_bit m b u
    exact ⟨v, r, hv, hresp, by rw [hr, hkept, hm, Bool.and_true]⟩
  case decoder =>
    have hkept := runEvents_keeps_of_mem (P := FlagIs d b true)
      (fun j hj s t => exec_flag_stays_set hb (fun m h => hpoll m (h ▸ hj))
        fun slotOk line h => hattach slotOk line (h ▸ hj)) hrun (exec_synchro_sets hb hexec hsync)
    obtain ⟨v, r, hv, hresp, hr⟩ := exec_dIssync_bit m hkept
    exact ⟨v, r, hv, hresp, by rw [hr, hm, Bool.and_true]⟩

end Sys2Proof.Machine
end

section
/-! PROOFS. The timer (41_generator.md sections 2 and 3): what one compare match does, when the next one
comes, that pending values are not seen before a commit, and the first commit after reset. -/

namespace Sys2Proof.Machine

/-! ### One compare match -/

/-- The header's addition to OCR, by whether the tick is above 1 µs (41_generator.md R104). -/
theorem add_hdrStep (c : Config) (o : Count8) :
    o + hdrStep c =
      if c.tickDen < c.tickNum then o + BitVec.ofNat 8 (us2ticks c c.headerUs) else o := by
  unfold hdrStep hdrAdd hdrTicks
  split <;> rename_i h
  · rw [if_pos (of_decide_eq_true h)]
  · rw [if_neg fun h' => h (decide_eq_true h')]
    exact BitVec.add_zero o

/-- A compare match leaves the pin as the comparator's toggle does. -/
theorem compareMatch_pin {c : Config} {g g' : Gen} (h : compareMatch c g = .ok g') :
    g'.pin = if g.tog then !g.pin else g.pin := by
  obtain ⟨-, rfl⟩ | ⟨-, -, -, cur', e, -, -, rfl⟩ | ⟨-, -, -, e, -, rfl⟩ | ⟨-, -, rfl⟩ := compareMatch_cases h
  all_goals rfl

/-- Settles O26: the toggle comes before the handler, which does not touch the pin. -/
theorem matchTogglesThePinWhenTogIsSet : Obligations.MatchTogglesThePinWhenTogIsSet := by
  unfold Obligations.MatchTogglesThePinWhenTogIsSet
  refine ⟨fun s t h => ?_, fun s hcie => ?_⟩
  · obtain ⟨g', hg, rfl⟩ := onGen_next h
    exact compareMatch_pin hg
  · rw [exec_gCmatch, compareMatch_off hcie, onGen_ok]
    rfl

/-- Settles O27: the result of the load, with the header's addition written out. -/
theorem headerStepLoadsTheNextSlot : Obligations.HeaderStepLoadsTheNextSlot := by
  unfold Obligations.HeaderStepLoadsTheNextSlot
  intro s e hcie hphase haidx he
  obtain ⟨hsucc, hlast⟩ := not_lastSlot_of_lt haidx
  rw [← hsucc] at he
  rw [exec_gCmatch, compareMatch_load hcie hphase hlast he, onGen_ok, ← add_hdrStep]
  rfl

/-- Settles O28: the copy of slots 0 to NCH succeeds, and slot 0 is loaded from it. -/
theorem headerStepCommitsAtFrameBoundary : Obligations.HeaderStepCommitsAtFrameBoundary := by
  unfold Obligations.HeaderStepCommitsAtFrameBoundary
  intro s hcie hphase haidx hslots
  obtain ⟨v, hv⟩ := specified_iff.mp (hslots _ (Nat.le_refl _))
  have hnch : s.gen.nch.toNat < 9 := lt_tableSlots_of_get hv
  have hlast : LastSlot s.gen := lastSlot_of_eq haidx (by omega)
  obtain ⟨cur', hcopy⟩ := copySlots_exists (cur := s.gen.cur) (k := s.gen.nch.toNat + 1)
    fun k hk => specified_iff.mp (hslots k (by omega))
  obtain ⟨hlow, hhigh⟩ := copySlots_ok hcopy
  obtain ⟨hzero, e, he⟩ := hlow 0 (Nat.succ_pos _)
  refine ⟨(s.setGen (committed s.cfg s.gen cur' e)).respond 0, e, ?_, he, ?_,
    fun k hk => (hlow k (by omega)).1, fun k hk => hhigh k (by omega)⟩
  · rw [exec_gCmatch, compareMatch_commit hcie hphase hlast hcopy (hzero.trans he), onGen_ok]
  · rw [← add_hdrStep]
    rfl

/-- An operation on the generator replaces it, whatever it was. -/
theorem onGen_setGen (s : State) (g : Gen) (eg : Except Fault Gen) (r : Int) :
    onGen (s.setGen g) eg r = onGen s eg r := by
  cases eg <;> rfl

/-- Settles O30: by whether the count reaches OCR. -/
theorem tickCountsAndMatchesAtCompare : Obligations.TickCountsAndMatchesAtCompare := by
  unfold Obligations.TickCountsAndMatchesAtCompare
  refine fun s => ⟨fun hnot => exec_gTick_of_not_due hnot, fun hdue => ?_⟩
  rw [exec_gTick_of_due hdue]
  exact (onGen_setGen s (s.gen.withCnt (s.gen.cnt + 1)) _ 0).symm

/-! ### Timer counts -/

/-- One timer count is G.TICK. -/
theorem runTicks_one_iff {s t : State} : runTicks 1 s = some t ↔ exec .gTick s = .next t := by
  simp only [runTicks]
  split <;> simp_all

/-- A run of `a + b` counts goes on from the state after `a`. -/
theorem runTicks_add_of {a : Nat} {s t : State} (h : runTicks a s = some t) (b : Nat) :
    runTicks (a + b) s = runTicks b t := by
  rw [runTicks_add, h, Option.bind_some]

/-- The state after `k` counts without a match: CNT has advanced, and each count has answered 0. -/
def counted (s : State) (k : Nat) : State :=
  { s with gen := s.gen.withCnt (s.gen.cnt + BitVec.ofNat 8 k), resp := if k = 0 then s.resp else some 0 }

/-- Zero counts leave the state as it is. -/
theorem counted_zero (s : State) : counted s 0 = s := by
  rw [counted, BitVec.add_zero]
  rfl

/-- A count without a match after `k` of them makes `k + 1`. -/
theorem counted_succ (s : State) (k : Nat) :
    ((counted s k).setGen ((counted s k).gen.withCnt ((counted s k).gen.cnt + 1))).respond 0 =
      counted s (k + 1) := by
  have hcnt : s.gen.cnt + BitVec.ofNat 8 k + 1 = s.gen.cnt + BitVec.ofNat 8 (k + 1) := by
    rw [BitVec.add_assoc, BitVec.ofNat_add]
    rfl
  rw [counted, counted, ← hcnt, if_neg (Nat.succ_ne_zero k)]
  rfl

/-- A delay as a number from 1 to 256. -/
theorem matchDelay_eq (d : Count8) : matchDelay d = if d.toNat = 0 then 256 else d.toNat :=
  if_congr BitVec.toNat_inj.symm rfl rfl

/-- A delay is never 0. -/
theorem matchDelay_pos (d : Count8) : 0 < matchDelay d := by
  rw [matchDelay_eq]
  split <;> omega

/-- With OCR `d` ahead of CNT the match is due one count before its delay has passed. -/
theorem due_counted_iff {s : State} {d : Count8} (hocr : s.gen.ocr = s.gen.cnt + d) {k : Nat}
    (hk : k < matchDelay d) : MatchDue (counted s k).gen ↔ k + 1 = matchDelay d := by
  have hone : (1 : Count8).toNat = 1 := rfl
  have hcnt := s.gen.cnt.isLt
  have hd := d.isLt
  have hdue : MatchDue (counted s k).gen ↔ s.gen.cnt + BitVec.ofNat 8 k + 1 = s.gen.cnt + d := by
    rw [← hocr]
    rfl
  rw [matchDelay_eq] at hk ⊢
  rw [hdue, ← BitVec.toNat_inj, BitVec.toNat_add, BitVec.toNat_add, BitVec.toNat_add, BitVec.toNat_ofNat,
    hone]
  split at hk <;> rename_i h
  · rw [if_pos h]
    omega
  · rw [if_neg h]
    omega

/-- Until the match only CNT moves. -/
theorem runTicks_counted {s : State} {d : Count8} (hocr : s.gen.ocr = s.gen.cnt + d) {k : Nat}
    (hk : k < matchDelay d) : runTicks k s = some (counted s k) := by
  induction k with
  | zero => rw [counted_zero]; rfl
  | succ k ih =>
    have hnot : ¬ MatchDue (counted s k).gen := fun hdue =>
      Nat.ne_of_lt hk ((due_counted_iff hocr (Nat.lt_of_succ_lt hk)).mp hdue)
    rw [runTicks_add_of (ih (Nat.lt_of_succ_lt hk)), runTicks_one_iff, exec_gTick_of_not_due hnot,
      counted_succ]

/-- Settles O31: the state after `k` counts, and when the match is due. -/
theorem nextMatchComesAfterItsDelay : Obligations.NextMatchComesAfterItsDelay := by
  unfold Obligations.NextMatchComesAfterItsDelay
  intro s d hocr k hk
  exact ⟨counted s k, runTicks_counted hocr hk, rfl, due_counted_iff hocr hk⟩

/-- The count that reaches OCR gives what the compare match with CNT at OCR gives. -/
theorem runTicks_one_of_due {s : State} {g' : Gen} (hdue : MatchDue s.gen)
    (h : compareMatch s.cfg (s.gen.withCnt s.gen.ocr) = .ok g') :
    runTicks 1 s = some ((s.setGen g').respond 0) := by
  have hcnt : s.gen.cnt + 1 = s.gen.ocr := hdue
  rw [runTicks_one_iff, exec_gTick_of_due hdue, hcnt, h, onGen_ok]

/-- Counting to the match and through it gives what the compare match with CNT at OCR gives. -/
theorem runTicks_matchDelay {s : State} {d : Count8} {g' : Gen} (hocr : s.gen.ocr = s.gen.cnt + d)
    (h : compareMatch s.cfg (s.gen.withCnt s.gen.ocr) = .ok g') :
    runTicks (matchDelay d) s = some ((s.setGen g').respond 0) := by
  obtain ⟨k, hk⟩ := Nat.exists_eq_succ_of_ne_zero (Nat.ne_of_gt (matchDelay_pos d))
  have hlt : k < matchDelay d := by omega
  have hdue : MatchDue (counted s k).gen := (due_counted_iff hocr hlt).mpr hk.symm
  rw [hk, Nat.succ_eq_add_one, runTicks_add_of (runTicks_counted hocr hlt), runTicks_one_of_due hdue h]
  rfl

/-- Settles O32: the match at the end of the counts is G.CMATCH's. -/
theorem closedModelPerformsTheOpenModelsMatch : Obligations.ClosedModelPerformsTheOpenModelsMatch := by
  unfold Obligations.ClosedModelPerformsTheOpenModelsMatch
  intro s t d hocr hexec
  obtain ⟨g', hg, rfl⟩ := onGen_next hexec
  exact runTicks_matchDelay hocr hg

/-! ### Pending values before a commit -/

/-- The generator with another pending side. -/
def Gen.withNext (g : Gen) (nxt : Table) : Gen := { g with next := nxt }

/-- The state with another pending side. -/
def State.withNext (s : State) (nxt : Table) : State := s.setGen (s.gen.withNext nxt)

/-- A compare match that does not commit does not see the pending side. -/
theorem compareMatch_withNext {c : Config} {g g' : Gen} (nxt : Table) (h : compareMatch c g = .ok g')
    (hno : ¬ (g.cie = true ∧ g.phase = .header ∧ LastSlot g)) :
    compareMatch c (g.withNext nxt) = .ok (g'.withNext nxt) := by
  obtain ⟨hcie, rfl⟩ | ⟨hcie, hphase, hlast, -⟩ | ⟨hcie, hphase, hlast, e, he, rfl⟩ | ⟨hcie, hphase, rfl⟩ :=
    compareMatch_cases h
  · exact compareMatch_off hcie
  · exact absurd ⟨hcie, hphase, hlast⟩ hno
  · exact compareMatch_load (g := g.withNext nxt) hcie hphase hlast he
  · exact compareMatch_tail (g := g.withNext nxt) c hcie hphase

/-- A timer count that does not commit does not see the pending side. -/
theorem exec_gTick_withNext {s t : State} (nxt : Table) (h : exec .gTick s = .next t)
    (hno : ¬ (MatchDue s.gen ∧ s.gen.cie = true ∧ s.gen.phase = .header ∧ LastSlot s.gen)) :
    exec .gTick (s.withNext nxt) = .next (t.withNext nxt) := by
  by_cases hdue : MatchDue s.gen
  · rw [exec_gTick_of_due hdue] at h
    obtain ⟨g', hg, rfl⟩ := onGen_next h
    have hother := compareMatch_withNext nxt hg fun hc => hno ⟨hdue, hc⟩
    rw [exec_gTick_of_due (s := s.withNext nxt) hdue, State.withNext, onGen_setGen]
    exact congrArg (fun eg => onGen s eg 0) hother
  · rw [exec_gTick_of_not_due hdue] at h
    cases h
    exact exec_gTick_of_not_due (s := s.withNext nxt) hdue

/-- Settles O37: by induction on the counts, none of which sees the pending side. -/
theorem pendingWritesAreInvisibleUntilCommit : Obligations.PendingWritesAreInvisibleUntilCommit := by
  unfold Obligations.PendingWritesAreInvisibleUntilCommit
  intro nxt k s t hrun hno
  change runTicks k (s.withNext nxt) = some (t.withNext nxt)
  induction k generalizing s with
  | zero => cases hrun; rfl
  | succ k ih =>
    rw [Nat.add_comm, runTicks_add] at hrun
    obtain ⟨s', hfirst, hrest⟩ := Option.bind_eq_some_iff.mp hrun
    have hother := exec_gTick_withNext nxt (runTicks_one_iff.mp hfirst) (hno 0 s (Nat.succ_pos k) rfl)
    rw [Nat.add_comm, runTicks_add_of (runTicks_one_iff.mpr hother)]
    refine ih s' hrest fun j u hj hu => hno (1 + j) u (by omega) ?_
    rw [runTicks_add_of hfirst, hu]

/-! ### The first commit after reset -/

/-- The generator at reset meets its part of the invariant. -/
theorem genOk_reset : GenOk Gen.reset :=
  ⟨by decide, by decide, fun hen => Bool.noConfusion hen⟩

/-- Settles O59: at reset CNT and OCR are equal, so the first match is 256 counts away, and G.INIT has put
the cursor before a frame boundary. -/
theorem firstCommitIs256CountsAfterReset : Obligations.FirstCommitIs256CountsAfterReset := by
  unfold Obligations.FirstCommitIs256CountsAfterReset
  intro c pol nch per t hexec
  have hgen : GenOk t.gen := (exec_genStep hexec).genOk genOk_reset
  obtain ⟨-, ⟨ha, -⟩ | ⟨-, f, e, n', -, ht⟩⟩ := exec_gInit_next hexec
  · cases ha
  have hocr : t.gen.ocr = t.gen.cnt + 0 := by rw [ht]; rfl
  have hpin : t.gen.pin = decide (pol = .negative) := by rw [ht]; exact idleLevel_eq pol
  have hsync : t.gen.sync = 0 := by rw [ht]; rfl
  have hon : t.gen.en = true ∧ t.gen.cie = true ∧ t.gen.tog = true ∧ t.gen.phase = .header ∧
      t.gen.aidx = t.gen.nch := by rw [ht]; exact ⟨rfl, rfl, rfl, rfl, rfl⟩
  clear ht
  obtain ⟨hen, hcie, htog, hphase, haidx⟩ := hon
  refine ⟨fun k hk => ⟨_, runTicks_counted hocr hk, hsync, hpin⟩, ?_⟩
  obtain ⟨cur', hcopy⟩ := copySlots_exists (cur := t.gen.cur) (k := t.gen.nch.toNat + 1)
    fun k hk => specified_iff.mp ((hgen.tables hen).1 k (by omega))
  obtain ⟨hlow, -⟩ := copySlots_ok hcopy
  obtain ⟨hzero, v, hv⟩ := hlow 0 (Nat.succ_pos _)
  have hmatch := compareMatch_commit (c := t.cfg) (g := t.gen.withCnt t.gen.ocr) hcie hphase
    ((lastSlot_iff hgen.ranges).mpr haidx) hcopy (hzero.trans hv)
  refine ⟨_, runTicks_matchDelay hocr hmatch, rfl, rfl, rfl, ?_, fun k hk => (hlow k (by omega)).1⟩
  calc (committed t.cfg (t.gen.withCnt t.gen.ocr) cur' v).pin
      = if t.gen.tog then !t.gen.pin else t.gen.pin := rfl
    _ = !decide (pol = .negative) := by rw [htog, if_pos rfl, hpin]
    _ = decide (pol = .positive) := by cases pol <;> rfl

end Sys2Proof.Machine
end

section
/-! PROOFS. The timeline of a slot and of a frame (41_generator.md section 3): a run of timer counts is cut
into legs, each from one compare match up to the next. -/

namespace Sys2Proof.Machine

/-! ### Runs of counts with what holds throughout -/

/-- `n` counts lead from `s` to `t`, and after each of them `P` holds. -/
def Reaches (n : Nat) (P : State → Prop) (s t : State) : Prop :=
  runTicks n s = some t ∧ ∀ k, 1 ≤ k → k ≤ n → ∃ u, runTicks k s = some u ∧ P u

/-- One run after another. -/
theorem Reaches.trans {a b : Nat} {P : State → Prop} {s t u : State} (h : Reaches a P s t)
    (h' : Reaches b P t u) : Reaches (a + b) P s u := by
  obtain ⟨hrun, hall⟩ := h
  obtain ⟨hrun', hall'⟩ := h'
  refine ⟨by rw [runTicks_add_of hrun, hrun'], fun k h1 hk => ?_⟩
  rcases Nat.le_or_ge k a with hka | hka
  · exact hall k h1 hka
  · obtain ⟨j, rfl⟩ := Nat.exists_eq_add_of_le hka
    rcases Nat.eq_zero_or_pos j with rfl | hj
    · exact hall a h1 (Nat.le_refl a)
    · rw [runTicks_add_of hrun]
      exact hall' j hj (by omega)

/-- A weaker property throughout. -/
theorem Reaches.mono {n : Nat} {P Q : State → Prop} {s t : State} (h : Reaches n P s t)
    (hpq : ∀ u, P u → Q u) : Reaches n Q s t :=
  ⟨h.1, fun k h1 hk => by
    obtain ⟨u, hu, hp⟩ := h.2 k h1 hk
    exact ⟨u, hu, hpq u hp⟩⟩

/-! ### A leg -/

/-- `u` is `s` with the generator `g`, but for the counter. -/
def AtGen (s : State) (g : Gen) (u : State) : Prop := ∃ n, u = (s.setGen (g.withCnt n)).respond 0

/-- The counts of a leg: the compare match that is due gives `g'`, which re-arms `d` ahead; then only CNT
moves until the next match is due. -/
theorem runTicks_after_match {s : State} {g' : Gen} {d : Count8} (hdue : MatchDue s.gen)
    (h : compareMatch s.cfg (s.gen.withCnt s.gen.ocr) = .ok g') (hcnt : g'.cnt = s.gen.ocr)
    (hocr : g'.ocr = s.gen.ocr + d) {k : Nat} (hk : k < matchDelay d) :
    ∃ n, runTicks (1 + k) s = some ((s.setGen (g'.withCnt n)).respond 0) ∧
      (n + 1 = g'.ocr ↔ k + 1 = matchDelay d) := by
  have hocr' : ((s.setGen g').respond 0).gen.ocr = ((s.setGen g').respond 0).gen.cnt + d :=
    hocr.trans (by rw [← hcnt]; rfl)
  refine ⟨g'.cnt + BitVec.ofNat 8 k, ?_, due_counted_iff hocr' hk⟩
  rw [runTicks_add_of (runTicks_one_of_due hdue h), runTicks_counted hocr' hk]
  simp only [counted, State.respond_resp, ite_self]
  rfl

/-- A leg: `matchDelay d` counts lead from one due match to the next. -/
theorem reaches_nextMatch {s : State} {g' : Gen} {d : Count8} (hdue : MatchDue s.gen)
    (h : compareMatch s.cfg (s.gen.withCnt s.gen.ocr) = .ok g') (hcnt : g'.cnt = s.gen.ocr)
    (hocr : g'.ocr = s.gen.ocr + d) :
    ∃ n, n + 1 = g'.ocr ∧
      Reaches (matchDelay d) (AtGen s g') s ((s.setGen (g'.withCnt n)).respond 0) := by
  have hpos := matchDelay_pos d
  obtain ⟨n, hrun, hlast⟩ := runTicks_after_match hdue h hcnt hocr (k := matchDelay d - 1) (by omega)
  rw [Nat.add_sub_cancel' hpos] at hrun
  refine ⟨n, hlast.mpr (Nat.sub_add_cancel hpos), hrun, fun k h1 hk => ?_⟩
  obtain ⟨m, hm, -⟩ := runTicks_after_match hdue h hcnt hocr (k := k - 1) (by omega)
  rw [Nat.add_sub_cancel' h1] at hm
  exact ⟨_, hm, m, rfl⟩

/-! ### The tail -/

/-- The generator with other values in the elements that time a slot. -/
def Gen.timed (g : Gen) (n o : Count8) (w : EncodedWidth) (ph : Phase) (tg p : Bool) : Gen :=
  { g with cnt := n, ocr := o, work := w, phase := ph, tog := tg, pin := p }

section
variable (s : State) (g : Gen) (n o n' o' : Count8) (w w' : EncodedWidth) (ph ph' : Phase) (tg p tg' p' : Bool)

/-- Later values replace earlier ones. -/
theorem Gen.timed_timed :
    (g.timed n o w ph tg p).timed n' o' w' ph' tg' p' = g.timed n' o' w' ph' tg' p' := rfl

/-- A generator put into a state replaces one put there before. -/
theorem State.setGen_respond_setGen (g' : Gen) (r r' : Int) :
    (((s.setGen g).respond r).setGen g').respond r' = (s.setGen g').respond r' := rfl

end

/-- `u` is `s` but for the elements that time a slot, with the pin at `p`. -/
def InTail (s : State) (p : Bool) (u : State) : Prop :=
  ∃ n o w ph tg, u = (s.setGen (s.gen.timed n o w ph tg p)).respond 0

/-- The end of a tail: the Header phase's match is due, the pin toggles again and stands at `p`. -/
def TailEnd (s : State) (p : Bool) (u : State) : Prop :=
  ∃ n o w, n + 1 = o ∧ u = (s.setGen (s.gen.timed n o w .header true p)).respond 0

/-- A state within the rest of a tail is within the tail. -/
theorem InTail.of_timed {s u : State} {n o : Count8} {w : EncodedWidth} {ph : Phase} {tg p p' : Bool}
    (h : InTail ((s.setGen (s.gen.timed n o w ph tg p)).respond 0) p' u) : InTail s p' u := by
  obtain ⟨n, o, w, ph, tg, rfl⟩ := h
  refine ⟨n, o, w, ph, tg, ?_⟩
  rw [State.respond_gen, State.setGen_gen, Gen.timed_timed, State.setGen_respond_setGen]

/-- The end of the rest of a tail is the end of the tail. -/
theorem TailEnd.of_timed {s u : State} {n o : Count8} {w : EncodedWidth} {ph : Phase} {tg p p' : Bool}
    (h : TailEnd ((s.setGen (s.gen.timed n o w ph tg p)).respond 0) p' u) : TailEnd s p' u := by
  obtain ⟨n, o, w, hn, rfl⟩ := h
  refine ⟨n, o, w, hn, ?_⟩
  rw [State.respond_gen, State.setGen_gen, Gen.timed_timed, State.setGen_respond_setGen]

/-- `segTicks` in numbers. -/
theorem segTicks_toNat (w : EncodedWidth) :
    segTicks w = if w.ovf.toNat = 0 then (if w.rem.toNat = 0 then 256 else w.rem.toNat)
      else w.rem.toNat + 256 * w.ovf.toNat - 128 * w.half.toNat := by
  unfold segTicks
  rw [if_congr (ovf_eq_zero_iff w) rfl rfl, if_congr (rem_eq_zero_iff w) rfl rfl]
  cases w.half <;> rfl

/-- WORK has run out exactly when both counts are 0. -/
theorem tailDone_iff (w : EncodedWidth) : tailDone w = true ↔ w.rem.toNat = 0 ∧ w.ovf.toNat = 0 := by
  rw [tailDone, decide_eq_true_iff, rem_eq_zero_iff, ovf_eq_zero_iff]

/-- A working encoding lasts for its next piece and then for what is left of it (41_generator.md R109). -/
theorem segTicks_eq (w : EncodedWidth) :
    segTicks w = matchDelay (tailAdd w) + if tailDone (tailWork w) then 0 else segTicks (tailWork w) := by
  have hhalf := w.half.toNat_le
  have hzero : (0 : BitVec 8).toNat = 0 := rfl
  by_cases hrem : w.rem = 0
  · have hrem' := (rem_eq_zero_iff w).mp hrem
    by_cases hovf : w.ovf = 0
    · have hovf' := (ovf_eq_zero_iff w).mp hovf
      rw [tailAdd_of_empty hrem hovf, tailWork_of_empty hrem hovf, if_pos ((tailDone_iff w).mpr ⟨hrem', hovf'⟩),
        segTicks_toNat, if_pos hovf', if_pos hrem']
      rfl
    · have hovf' : w.ovf.toNat ≠ 0 := fun h => hovf ((ovf_eq_zero_iff w).mpr h)
      have hovlt := w.ovf.isLt
      have hone : (1 : BitVec 7).toNat = 1 := rfl
      have hpred : (w.ovf - 1).toNat = w.ovf.toNat - 1 := by
        rw [BitVec.toNat_sub, hone]
        omega
      have hdelay : matchDelay (tailAdd w) = 256 - 128 * w.half.toNat := by
        rw [tailAdd_of_ovf hrem hovf]
        cases w.half <;> rfl
      rw [hdelay, tailWork_of_ovf hrem hovf, segTicks_toNat, segTicks_toNat,
        if_congr (tailDone_iff _) rfl rfl, if_neg hovf', hrem', hpred, hzero, Bool.toNat_false]
      simp only [true_and]
      split <;> omega
  · have hrem' : w.rem.toNat ≠ 0 := fun h => hrem ((rem_eq_zero_iff w).mpr h)
    have hdelay : matchDelay (tailAdd w) = w.rem.toNat := by
      rw [tailAdd_of_rem hrem, matchDelay_eq, if_neg hrem']
    rw [hdelay, tailWork_of_rem hrem, segTicks_toNat, segTicks_toNat, if_congr (tailDone_iff _) rfl rfl,
      if_neg hrem', hzero]
    simp only [true_and]
    split <;> omega

/-- A match of the Tail phase that uses WORK up restores the toggle, and the Header phase is next. -/
theorem compareMatch_tail_done (c : Config) {g : Gen} (hcie : g.cie = true) (hphase : g.phase = .tail)
    (hdone : tailDone (tailWork g.work) = true) :
    compareMatch c g = .ok (g.timed g.cnt (g.ocr + tailAdd g.work) (tailWork g.work) .header true
      (togglePin g).pin) := by
  rw [compareMatch_tail c hcie hphase, tailStep, togglePin_work, hdone]
  rfl

/-- A match of the Tail phase that leaves some of WORK switches the toggle off. -/
theorem compareMatch_tail_left (c : Config) {g : Gen} (hcie : g.cie = true) (hphase : g.phase = .tail)
    (hleft : tailDone (tailWork g.work) = false) :
    compareMatch c g = .ok (g.timed g.cnt (g.ocr + tailAdd g.work) (tailWork g.work) .tail false
      (togglePin g).pin) := by
  rw [compareMatch_tail c hcie hphase, tailStep, togglePin_work, hleft, togglePin_phase, hphase]
  rfl

/-- A leg within a tail, in the elements that time a slot. -/
theorem reaches_nextMatch_timed {s : State} {o : Count8} {w : EncodedWidth} {ph : Phase} {tg p : Bool} {d : Count8}
    (hdue : MatchDue s.gen) (hocr : o = s.gen.ocr + d)
    (h : compareMatch s.cfg (s.gen.withCnt s.gen.ocr) = .ok (s.gen.timed s.gen.ocr o w ph tg p)) :
    ∃ n, n + 1 = o ∧
      Reaches (matchDelay d) (InTail s p) s ((s.setGen (s.gen.timed n o w ph tg p)).respond 0) := by
  obtain ⟨n, hn, hleg⟩ := reaches_nextMatch hdue h rfl hocr
  exact ⟨n, hn, hleg.mono fun u ⟨m, hu⟩ => ⟨m, o, w, ph, tg, hu⟩⟩

/-- The tail: from the match that ends the header, `segTicks` of the working encoding passes until the
Header phase's match is due. By induction on the ticks that are left: each match uses up one piece. -/
theorem tail_run {s : State} (hdue : MatchDue s.gen) (hcie : s.gen.cie = true) (hphase : s.gen.phase = .tail) :
    ∃ t, Reaches (segTicks s.gen.work) (InTail s (togglePin s.gen).pin) s t ∧
      TailEnd s (togglePin s.gen).pin t := by
  induction hn : segTicks s.gen.work using Nat.strong_induction_on generalizing s with
  | _ n ih =>
    have hticks := segTicks_eq s.gen.work
    have hpos := matchDelay_pos (tailAdd s.gen.work)
    rw [hn] at hticks
    cases hdone : tailDone (tailWork s.gen.work) with
    | true =>
      obtain ⟨m, hm, hleg⟩ := reaches_nextMatch_timed hdue rfl
        (compareMatch_tail_done s.cfg (g := s.gen.withCnt s.gen.ocr) hcie hphase hdone)
      rw [hdone, if_pos rfl, Nat.add_zero] at hticks
      rw [hticks]
      exact ⟨_, hleg, m, _, _, hm, rfl⟩
    | false =>
      obtain ⟨m, hm, hleg⟩ := reaches_nextMatch_timed hdue rfl
        (compareMatch_tail_left s.cfg (g := s.gen.withCnt s.gen.ocr) hcie hphase hdone)
      rw [hdone, if_neg Bool.false_ne_true] at hticks
      obtain ⟨t, hrest, hend⟩ := ih (segTicks (tailWork s.gen.work)) (by omega)
        (s := (s.setGen (s.gen.timed m _ (tailWork s.gen.work) .tail false _)).respond 0) hm hcie rfl rfl
      rw [togglePin_of_off rfl] at hrest hend
      rw [hticks]
      exact ⟨t, hleg.trans (hrest.mono fun u => InTail.of_timed), TailEnd.of_timed hend⟩

/-! ### The slot -/

/-- What a compare match in the Header phase does to the elements that time the slot. -/
theorem compareMatch_header {c : Config} {g g' : Gen} (hcie : g.cie = true) (hphase : g.phase = .header)
    (h : compareMatch c g = .ok g') :
    g'.cnt = g.cnt ∧ g'.ocr = g.ocr + hdrStep c ∧ g'.phase = .tail ∧ g'.tog = g.tog ∧ g'.cie = true ∧
      g'.pin = if g.tog then !g.pin else g.pin := by
  obtain ⟨hoff, -⟩ | ⟨-, -, -, cur', e, -, -, rfl⟩ | ⟨-, -, -, e, -, rfl⟩ | ⟨-, htail, -⟩ :=
    compareMatch_cases h
  · exact Bool.noConfusion (hcie.symm.trans hoff)
  · exact ⟨rfl, rfl, rfl, rfl, hcie, rfl⟩
  · exact ⟨rfl, rfl, rfl, rfl, hcie, rfl⟩
  · exact Phase.noConfusion (hphase.symm.trans htail)

/-- A slot: from the match that runs its HeaderStep, which gives `g'`, a header passes with the pin
inverted and then a tail with the pin back. -/
theorem slot_run {s : State} {g' : Gen} (hcie : s.gen.cie = true) (hphase : s.gen.phase = .header)
    (htog : s.gen.tog = true) (hdue : MatchDue s.gen)
    (h : compareMatch s.cfg (s.gen.withCnt s.gen.ocr) = .ok g') :
    ∃ v t, Reaches (headerLen s.cfg) (fun u => AtGen s g' u ∧ u.gen.pin = !s.gen.pin) s v ∧
      Reaches (segTicks g'.work) (InTail (s.setGen g') s.gen.pin) v t ∧
      TailEnd (s.setGen g') s.gen.pin t := by
  obtain ⟨hcnt, hocr, htail, htog', hcie', hpin⟩ :=
    compareMatch_header (g := s.gen.withCnt s.gen.ocr) hcie hphase h
  have hinv : g'.pin = !s.gen.pin := hpin.trans (if_pos htog)
  obtain ⟨n, hn, hleg⟩ := reaches_nextMatch hdue h hcnt hocr
  obtain ⟨t, hrest, m, o, w, hmo, ht⟩ :=
    tail_run (s := (s.setGen (g'.withCnt n)).respond 0) hn hcie' htail
  have hback : (togglePin (g'.withCnt n)).pin = s.gen.pin := by
    calc (togglePin (g'.withCnt n)).pin
        = if g'.tog then !g'.pin else g'.pin := rfl
      _ = s.gen.pin := by rw [htog'.trans htog, if_pos rfl, hinv, Bool.not_not]
  simp only [State.respond_gen, State.setGen_gen, hback] at hrest ht
  refine ⟨_, t, hleg.mono fun u ⟨m, hu⟩ => ⟨⟨m, hu⟩, hu ▸ hinv⟩,
    hrest.mono fun u ⟨m, o, w, ph, tg, hu⟩ => ⟨m, o, w, ph, tg, hu⟩, m, o, w, hmo, ht⟩

/-- Settles O33: the header and the tail of a slot, one after the other. -/
theorem slotLastsHeaderAndTail : Obligations.SlotLastsHeaderAndTail := by
  unfold Obligations.SlotLastsHeaderAndTail
  intro s s1 hcie hphase htog hdue hexec
  have hcnt : s.gen.cnt + 1 = s.gen.ocr := hdue
  rw [exec_gTick_of_due hdue, hcnt] at hexec
  obtain ⟨g', hg, rfl⟩ := onGen_next hexec
  obtain ⟨v, t, hheader, htail, m, o, w, hmo, ht⟩ := slot_run hcie hphase htog hdue hg
  refine ⟨fun k h1 hk => ?_, fun k hk hk' => ?_, t, ?_, ?_, ?_⟩
  · obtain ⟨u, hu, -, hpin⟩ := hheader.2 k h1 hk
    exact ⟨u, hu, hpin⟩
  · obtain ⟨j, rfl⟩ := Nat.exists_eq_add_of_lt hk
    obtain ⟨u, hu, n, o, w, ph, tg, rfl⟩ := htail.2 (j + 1) (by omega) (by
      simp only [State.respond_gen, State.setGen_gen] at hk'
      omega)
    exact ⟨_, (runTicks_add_of hheader.1 (j + 1)).trans hu, rfl⟩
  · exact (runTicks_add_of hheader.1 _).trans htail.1
  · rw [ht]
    exact hmo
  · rw [ht]
    rfl

/-! ### The frame -/

/-- A slot as a whole: the current side stays what its HeaderStep left. -/
theorem slot_run_cur {s : State} {g' : Gen} (hcie : s.gen.cie = true) (hphase : s.gen.phase = .header)
    (htog : s.gen.tog = true) (hdue : MatchDue s.gen)
    (h : compareMatch s.cfg (s.gen.withCnt s.gen.ocr) = .ok g') :
    ∃ t, Reaches (headerLen s.cfg + segTicks g'.work) (fun u => u.gen.cur = g'.cur) s t ∧
      TailEnd (s.setGen g') s.gen.pin t := by
  obtain ⟨v, t, hheader, htail, hend⟩ := slot_run hcie hphase htog hdue h
  refine ⟨t, Reaches.trans (hheader.mono ?_) (htail.mono ?_), hend⟩
  · rintro u ⟨⟨n, rfl⟩, -⟩
    rfl
  · rintro u ⟨n, o, w, ph, tg, rfl⟩
    rfl

/-- Slot `j` of a frame with the current side `cur` is over and the next HeaderStep is due; `p` is the
pin's idle level. -/
structure SlotOver (c : Config) (cur : Table) (nch : BitVec 4) (p : Bool) (j : Nat) (u : State) : Prop where
  cfg : u.cfg = c
  cur : u.gen.cur = cur
  nch : u.gen.nch = nch
  aidx : u.gen.aidx.toNat = j
  phase : u.gen.phase = .header
  tog : u.gen.tog = true
  cie : u.gen.cie = true
  pin : u.gen.pin = p
  due : MatchDue u.gen

/-- The end of a slot's tail is the end of the slot. -/
theorem slotOver_of_tailEnd {s t : State} {g' : Gen} {p : Bool} (h : TailEnd (s.setGen g') p t)
    (hcie : g'.cie = true) : SlotOver s.cfg g'.cur g'.nch p g'.aidx.toNat t := by
  obtain ⟨n, o, w, hn, rfl⟩ := h
  exact ⟨rfl, rfl, rfl, rfl, rfl, rfl, hcie, rfl, hn⟩

/-- A slot's ticks are added to those before it. -/
theorem slotsTicks_succ {c : Config} {t : Table} {k : Nat} {e : EncodedWidth}
    (h : t[k]? = some (some e)) :
    slotsTicks c t (k + 1) = slotsTicks c t k + (headerLen c + segTicks e) := by
  simp only [slotsTicks, h]

/-- From the end of one slot to the end of the next. -/
theorem slot_after_slot {c : Config} {cur : Table} {nch : BitVec 4} {p : Bool} {j : Nat} {s : State}
    {e : EncodedWidth} (h : SlotOver c cur nch p j s) (hj : j + 1 ≤ nch.toNat)
    (he : cur[j + 1]? = some (some e)) :
    ∃ t, Reaches (headerLen c + segTicks e) (fun u => u.gen.cur = cur) s t ∧
      SlotOver c cur nch p (j + 1) t := by
  obtain ⟨rfl, rfl, rfl, rfl, hphase, htog, hcie, rfl, hdue⟩ := h
  obtain ⟨hsucc, hlast⟩ := not_lastSlot_of_lt hj
  rw [← hsucc] at he
  obtain ⟨t, hrun, hend⟩ := slot_run_cur hcie hphase htog hdue
    (compareMatch_load (c := s.cfg) (g := s.gen.withCnt s.gen.ocr) hcie hphase hlast he)
  refine ⟨t, hrun, ?_⟩
  rw [← hsucc]
  exact slotOver_of_tailEnd hend hcie

/-- From the count that commits to the end of slot `j`, the ticks of slots 0 to `j` pass. By induction on
the slots. -/
theorem frame_run {s : State} {cur' : Table} {e : EncodedWidth} (hcie : s.gen.cie = true)
    (hphase : s.gen.phase = .header) (htog : s.gen.tog = true) (hdue : MatchDue s.gen)
    (hmatch : compareMatch s.cfg (s.gen.withCnt s.gen.ocr) =
      .ok (committed s.cfg (s.gen.withCnt s.gen.ocr) cur' e))
    (he : cur'[0]? = some (some e)) (hfilled : FilledTo cur' s.gen.nch.toNat) {j : Nat}
    (hj : j ≤ s.gen.nch.toNat) :
    ∃ t, Reaches (slotsTicks s.cfg cur' (j + 1)) (fun u => u.gen.cur = cur') s t ∧
      SlotOver s.cfg cur' s.gen.nch s.gen.pin j t := by
  induction j with
  | zero =>
    obtain ⟨t, hrun, hend⟩ := slot_run_cur hcie hphase htog hdue hmatch
    rw [slotsTicks_succ he, slotsTicks, Nat.zero_add]
    exact ⟨t, hrun, slotOver_of_tailEnd hend hcie⟩
  | succ j ih =>
    obtain ⟨t, hrun, hover⟩ := ih (Nat.le_of_succ_le hj)
    obtain ⟨e', he'⟩ := specified_iff.mp (hfilled (j + 1) hj)
    obtain ⟨u, hrun', hover'⟩ := slot_after_slot hover hj he'
    rw [slotsTicks_succ he']
    exact ⟨u, hrun.trans hrun', hover'⟩

/-- Settles O34: the commit's slot and then the slots 1 to NCH, each loaded from the committed side. -/
theorem frameLastsTheSumOfItsSlots : Obligations.FrameLastsTheSumOfItsSlots := by
  unfold Obligations.FrameLastsTheSumOfItsSlots
  intro s s1 hranges hcie hboundary htog hdue hexec
  obtain ⟨hphase, haidx⟩ := hboundary
  have hlast : LastSlot s.gen := (lastSlot_iff hranges).mpr haidx
  have hcnt : s.gen.cnt + 1 = s.gen.ocr := hdue
  rw [exec_gTick_of_due hdue, hcnt] at hexec
  obtain ⟨g', hmatch, rfl⟩ := onGen_next hexec
  obtain ⟨hoff, -⟩ | ⟨-, -, -, cur', e, hcopy, he, rfl⟩ | ⟨-, -, hnot, -⟩ | ⟨-, htail, -⟩ :=
    compareMatch_cases hmatch
  · exact Bool.noConfusion (hcie.symm.trans hoff)
  · obtain ⟨t, ⟨hrun, hall⟩, hover⟩ := frame_run hcie hphase htog hdue hmatch he
      (filledTo_of_copied (g := s.gen) hcopy) (Nat.le_refl _)
    refine ⟨⟨t, hrun, ⟨hover.phase, ?_⟩, hover.due, hover.tog, hover.cie, hover.pin⟩, fun k u h1 hk hu => ?_⟩
    · rw [hover.nch]
      exact BitVec.eq_of_toNat_eq hover.aidx
    · obtain ⟨u', hu', hcur⟩ := hall k h1 hk
      rw [hu'] at hu
      cases hu
      exact hcur
  · exact absurd hlast hnot
  · exact Phase.noConfusion (hphase.symm.trans htail)

/-! ### A sound pending set -/

/-- A sound header lasts HDR_TICKS (00_scope.md R5 (a)). -/
theorem headerLen_of_sound {c : Config} (h : HeaderSound c) : headerLen c = hdrTicks c := by
  rw [headerLen, matchDelay_eq]
  by_cases htick : c.tickDen < c.tickNum
  · rw [HeaderSound, if_pos htick] at h
    have hstep : hdrStep c = BitVec.ofNat 8 (hdrTicks c) := if_pos (decide_eq_true htick)
    rw [hstep, BitVec.toNat_ofNat]
    split <;> omega
  · rw [HeaderSound, if_neg htick] at h
    have hstep : hdrStep c = 0 := if_neg fun hadd => htick (of_decide_eq_true hadd)
    rw [hstep, h]
    rfl

/-- The encoding of 16 ticks or more lasts them. -/
theorem segTicks_encodeTicks {t : Nat} (hlow : 16 ≤ t) (hhigh : t ≤ 32752) : segTicks (encodeTicks t) = t := by
  rw [handlerTicksOfEncode t hhigh, if_neg (Nat.not_lt.mpr hlow)]

/-- The slots 0 to `n` of a sound pending side last their headers, slot 0's ticks and the channels'. -/
theorem slotsTicks_of_sound {c : Config} {nxt : Table} {w : Nat → Nat} {f n : Nat} {a : Int}
    (hw : ∀ k, 1 ≤ k → k ≤ n → nxt[k]? = some (some (encodeTicks (w k))) ∧ 16 ≤ w k ∧ w k ≤ 32752)
    (hf : 16 ≤ f) (hf' : f ≤ 32752) (h0 : nxt[0]? = some (some (encodeTicks f)))
    (ha : sumDecoded nxt n = .ok a) :
    (slotsTicks c nxt (n + 1) : Int) = (headerLen c : Int) * (n + 1) + f + a := by
  induction n generalizing a with
  | zero =>
    cases ha
    rw [slotsTicks_succ h0, slotsTicks, segTicks_encodeTicks hf hf']
    push_cast
    omega
  | succ n ih =>
    obtain ⟨hslot, hlow, hhigh⟩ := hw (n + 1) (by omega) (Nat.le_refl _)
    rw [sumDecoded] at ha
    split at ha
    · cases ha
    · rename_i b hb
      rw [readSlot_ok_iff.mpr hslot] at ha
      cases ha
      have hprev := ih (fun k h1 hk => hw k h1 (by omega)) hb
      rw [slotsTicks_succ hslot, segTicks_encodeTicks hlow hhigh, decodedTicksInvertsEncode _ hhigh]
      push_cast at hprev ⊢
      rw [hprev]
      ring

/-- Settles O35: the ticks of the slots are what the filler was chosen to leave. -/
theorem soundPendingSetLastsThePeriod : Obligations.SoundPendingSetLastsThePeriod := by
  unfold Obligations.SoundPendingSetLastsThePeriod
  intro c g w f hsound hw hfill hf hf' h0
  unfold fillerTicks at hfill
  split at hfill
  · cases hfill
  · rename_i a ha
    have hticks := slotsTicks_of_sound (c := c) hw hf hf' h0 ha
    rw [headerLen_of_sound hsound] at hticks
    simp only [Except.ok.injEq] at hfill
    omega

end Sys2Proof.Machine
end

section
/-! PROOFS. The decoder (42_decoder.md): its host events, the three branches of the edge routine, and the
reconstruction of a frame from a run of edges. -/

namespace Sys2Proof.Machine

/-! ### The host's events -/

/-- Settles O43: the same decoder whether or not a slot was free, but for ATT and BOUND. -/
theorem attachResetsTheInstance : Obligations.AttachResetsTheInstance := by
  unfold Obligations.AttachResetsTheInstance
  intro d slotOk line s hd
  have hexec := onDec_some (f := fun _ => if slotOk then (attached slotOk line, 1)
    else raise .captureUnavailable (attached slotOk line, 0)) (List.getElem?_eq_getElem hd)
  refine Eq.trans hexec ?_
  cases slotOk <;> rfl

/-- Settles O46: a read of a valid channel's entry. -/
theorem widthReadsTheChannelsEntry : Obligations.WidthReadsTheChannelsEntry := by
  unfold Obligations.WidthReadsTheChannelsEntry
  intro d ch x v s hx h1 h9 hv
  have h0 : ch ≠ 0 := fun h => by
    rw [h] at h1
    cases h1
  have hvalid : validRead ch = true := decide_eq_true ⟨h0, h9⟩
  have hwidth : x.width ch = v.toNat := by
    rw [Dec.width, if_pos hvalid, hv, Option.getD_some]
  have hread := onDec_read (fun y => (y.width ch : Int)) hx
  rw [hwidth] at hread
  exact hread

/-- Settles O47: a read of PERIOD_EST. -/
theorem periodReadsTheEstimate : Obligations.PeriodReadsTheEstimate := by
  unfold Obligations.PeriodReadsTheEstimate
  intro d x s hx
  exact onDec_read (fun y => (y.periodEst.toNat : Int)) hx

/-- Settles O49: D.SUSPEND on a decoder that is present. -/
theorem suspendDetachesAndInvalidatesTheCursor : Obligations.SuspendDetachesAndInvalidatesTheCursor := by
  unfold Obligations.SuspendDetachesAndInvalidatesTheCursor
  intro d x s hx
  exact onDec_some hx

/-- Settles O50: D.RESUME on a decoder that is present. -/
theorem resumePrimesAndReattaches : Obligations.ResumePrimesAndReattaches := by
  unfold Obligations.ResumePrimesAndReattaches
  intro d now x s hx
  exact onDec_some hx

/-! ### The branches of the edge routine -/

section
variable {x : Dec} {line : BitVec 8} {ts : Micros}

/-- A decoder that does not hear the edge is untouched. -/
theorem Dec.edge_of_not_heard (h : x.hears line = false) : x.edge line ts = x :=
  if_neg (Bool.eq_false_iff.mp h)

/-- A synchro gap. -/
theorem Dec.edge_of_sync (h : x.hears line = true) (hs : x.isSync ts = true) :
    x.edge line ts = x.syncEdge ts :=
  (if_pos h).trans (if_pos hs)

/-- A channel with room. -/
theorem Dec.edge_of_room (h : x.hears line = true) (hs : x.isSync ts = false) (hr : x.hasRoom = true) :
    x.edge line ts = x.storeEdge ts :=
  (if_pos h).trans ((if_neg (Bool.eq_false_iff.mp hs)).trans (if_pos hr))

/-- A channel without room. -/
theorem Dec.edge_of_full (h : x.hears line = true) (hs : x.isSync ts = false) (hr : x.hasRoom = false) :
    x.edge line ts = x.dropEdge ts :=
  (if_pos h).trans ((if_neg (Bool.eq_false_iff.mp hs)).trans (if_neg (Bool.eq_false_iff.mp hr)))

/-- There is room with the cursor below 9. -/
theorem Dec.hasRoom_iff : x.hasRoom = true ↔ x.widx.toNat < 9 :=
  decide_eq_true_iff

/-- The interval is short below 3000 µs. -/
theorem Dec.isSync_eq_false_iff :
    x.isSync ts = false ↔ (ts.toNat + 65536 - x.prevTs.toNat) % 65536 < 3000 := by
  rw [← Bool.not_eq_true, Dec.isSync_iff, Nat.not_le]

/-- The buffer after an entry is stored with room. -/
theorem Dec.storeEdge_buf (hroom : x.widx.toNat < 9) (k : Nat) :
    (x.storeEdge ts).buf[k]? = if k = x.widx.toNat then some (x.gap ts) else x.buf[k]? := by
  rw [Dec.storeEdge, Vector.getElem?_setIfInBounds]
  by_cases hk : x.widx.toNat = k
  · rw [if_pos hk, if_pos hroom, if_pos hk.symm]
  · rw [if_neg hk, if_neg (Ne.symm hk)]

/-- An interval as a 16-bit value. -/
theorem interval_eq_ofNat (ts prev : Micros) :
    interval ts prev = BitVec.ofNat 16 ((ts.toNat + 65536 - prev.toNat) % 65536) := by
  rw [← interval_toNat, BitVec.ofNat_toNat, BitVec.setWidth_eq]

end

/-- D.EDGE applies the edge routine to every decoder. -/
theorem exec_dEdge (line : BitVec 8) (ts : Micros) (s : State) :
    exec (.dEdge line ts) s = .next ((s.mapDec fun x => x.edge line ts).respond 0) := rfl

/-- Settles O44: the four cases of the edge routine, in each decoder. -/
theorem edgeClassifiesTheInterval : Obligations.EdgeClassifiesTheInterval := by
  unfold Obligations.EdgeClassifiesTheInterval
  intro line ts s
  refine ⟨_, exec_dEdge line ts s, rfl, List.length_map _, fun d x gap hx hgap => ?_⟩
  have hafter : ((s.mapDec fun x => x.edge line ts).respond 0).dec[d]? = some (x.edge line ts) := by
    rw [State.respond_dec, State.mapDec_dec, List.getElem?_map, hx, Option.map_some]
  subst hgap
  refine ⟨fun hdeaf => ?_, fun hatt hline hlong => ?_, fun hatt hline hshort hroom => ?_,
    fun hatt hline hshort hfull => ?_⟩
  · rw [hafter, Dec.edge_of_not_heard (Bool.eq_false_iff.mpr fun h => hdeaf (Dec.hears_iff.mp h))]
  · rw [hafter, Dec.edge_of_sync (Dec.hears_iff.mpr ⟨hatt, hline⟩) (Dec.isSync_iff.mpr hlong),
      ← interval_eq_ofNat]
    rfl
  · have hstore := Dec.edge_of_room (Dec.hears_iff.mpr ⟨hatt, hline⟩) (Dec.isSync_eq_false_iff.mpr hshort)
      (Dec.hasRoom_iff.mpr hroom)
    refine ⟨x.storeEdge ts, by rw [hafter, hstore], ?_, fun k => ?_⟩
    · rw [← cursor_succ hroom, BitVec.ofNat_toNat, BitVec.setWidth_eq]
      rfl
    · rw [Dec.storeEdge_buf hroom, ← interval_eq_ofNat]
      rfl
  · rw [hafter, Dec.edge_of_full (Dec.hears_iff.mpr ⟨hatt, hline⟩) (Dec.isSync_eq_false_iff.mpr hshort)
      (Dec.hasRoom_eq_false_iff.mpr hfull)]
    rfl

/-! ### Runs of edges -/

/-- What a run of edges of one line does to one decoder. -/
def Dec.edges (line : BitVec 8) (l : List Micros) (x : Dec) : Dec :=
  l.foldl (fun x ts => x.edge line ts) x

/-- A run of edges completes, with that effect on each decoder. -/
theorem runEvents_edges (line : BitVec 8) (l : List Micros) (s : State) :
    ∃ t, runEvents (l.map (Instr.dEdge line)) s = some t ∧ t.dec = s.dec.map (Dec.edges line l) := by
  induction l generalizing s with
  | nil => exact ⟨s, rfl, (List.map_id' s.dec).symm⟩
  | cons ts l ih =>
    obtain ⟨t, hrun, hdec⟩ := ih ((s.mapDec fun x => x.edge line ts).respond 0)
    refine ⟨t, runEvents_cons_some.mpr ⟨_, exec_dEdge line ts s, hrun⟩, ?_⟩
    rw [hdec, State.respond_dec, State.mapDec_dec, List.map_map]
    rfl

/-- An edge by an interval after the previous one closes that interval. -/
theorem Dec.gap_add (x : Dec) (g : Micros) : x.gap (x.prevTs + g) = g := by
  rw [Dec.gap, interval, BitVec.add_comm, BitVec.add_sub_cancel]

/-- An interval below 3000 µs is short. -/
theorem Dec.isSync_add_of_lt {x : Dec} {g : Micros} (h : g.toNat < 3000) : x.isSync (x.prevTs + g) = false := by
  rw [Dec.isSync, x.gap_add]
  exact decide_eq_false (Nat.not_le.mpr h)

/-- An interval of 3000 µs or more is a synchro gap. -/
theorem Dec.isSync_add_of_le {x : Dec} {g : Micros} (h : 3000 ≤ g.toNat) : x.isSync (x.prevTs + g) = true := by
  rw [Dec.isSync, x.gap_add]
  exact decide_eq_true h

/-- The last timestamp of a run stands by all the intervals after the first. -/
theorem stampsFrom_append (t0 : Micros) (gaps : List Micros) (g : Micros) :
    stampsFrom t0 (gaps ++ [g]) = stampsFrom t0 gaps ++ [t0 + sumGaps gaps + g] := by
  induction gaps generalizing t0 with
  | nil => simp [stampsFrom, sumGaps]
  | cons v gaps ih =>
    rw [List.cons_append, stampsFrom, ih, stampsFrom, List.cons_append, sumGaps, BitVec.add_assoc t0 v]

/-- A run of edges and one more. -/
theorem Dec.edges_append (x : Dec) (line : BitVec 8) (l : List Micros) (ts : Micros) :
    x.edges line (l ++ [ts]) = (x.edges line l).edge line ts := by
  rw [Dec.edges, List.foldl_append]
  rfl

/-- A run of edges after a first. -/
theorem Dec.edges_cons (x : Dec) (line : BitVec 8) (ts : Micros) (l : List Micros) :
    x.edges line (ts :: l) = (x.edge line ts).edges line l := rfl

/-- Short intervals that find no room are dropped. -/
theorem Dec.edges_of_full {x : Dec} {line : BitVec 8} {gaps : List Micros} (hears : x.hears line = true)
    (hfull : x.hasRoom = false) (hshort : ∀ v ∈ gaps, v.toNat < 3000) :
    x.edges line (stampsFrom x.prevTs gaps) = x.dropEdge (x.prevTs + sumGaps gaps) := by
  induction gaps generalizing x with
  | nil =>
    have hstay : x.prevTs + 0 = x.prevTs := BitVec.add_zero _
    rw [sumGaps, hstay]
    rfl
  | cons v gaps ih =>
    obtain ⟨hv, hgaps⟩ := List.forall_mem_cons.mp hshort
    have hrest := ih (x := x.dropEdge (x.prevTs + v)) hears hfull hgaps
    rw [stampsFrom, Dec.edges_cons, Dec.edge_of_full hears (Dec.isSync_add_of_lt hv) hfull, sumGaps,
      ← BitVec.add_assoc]
    exact hrest

/-- `y` is `x` after a run of short intervals: they stand in the buffer from the cursor of `x` on, as far
as there is room. -/
structure ShortRun (x : Dec) (gaps : List Micros) (y : Dec) : Prop where
  att : y.att = x.att
  line : y.line = x.line
  psyncTs : y.psyncTs = x.psyncTs
  prevTs : y.prevTs = x.prevTs + sumGaps gaps
  widx : y.widx.toNat = min (x.widx.toNat + gaps.length) 9
  kept : ∀ k, k < x.widx.toNat → y.buf[k]? = x.buf[k]?
  stored : ∀ k, x.widx.toNat + k < 9 → k < gaps.length → y.buf[x.widx.toNat + k]? = gaps[k]?

/-- A run of short intervals, by induction on them: one is stored while there is room, the others are
dropped. -/
theorem Dec.edges_of_short {x : Dec} {line : BitVec 8} {gaps : List Micros} (hears : x.hears line = true)
    (hcursor : x.widx.toNat ≤ 9) (hshort : ∀ v ∈ gaps, v.toNat < 3000) :
    ShortRun x gaps (x.edges line (stampsFrom x.prevTs gaps)) := by
  induction gaps generalizing x with
  | nil =>
    refine ⟨rfl, rfl, rfl, (BitVec.add_zero _).symm, (Nat.min_eq_left hcursor).symm, fun _ _ => rfl,
      fun k _ hk => absurd hk (Nat.not_lt_zero k)⟩
  | cons v gaps ih =>
    obtain ⟨hv, hgaps⟩ := List.forall_mem_cons.mp hshort
    by_cases hroom : x.widx.toNat < 9
    · have hsucc : (x.storeEdge (x.prevTs + v)).widx.toNat = x.widx.toNat + 1 := cursor_succ hroom
      obtain ⟨hatt, hline, hpsync, hprev, hwidx, hkept, hstored⟩ :=
        ih (x := x.storeEdge (x.prevTs + v)) hears (by omega) hgaps
      rw [stampsFrom, Dec.edges_cons,
        Dec.edge_of_room hears (Dec.isSync_add_of_lt hv) (Dec.hasRoom_iff.mpr hroom)]
      refine ⟨hatt, hline, hpsync, ?_, ?_, fun k hk => ?_, fun k hk hlen => ?_⟩
      · rw [sumGaps, ← BitVec.add_assoc]
        exact hprev
      · rw [List.length_cons]
        exact hwidx.trans (by omega)
      · exact (hkept k (by omega)).trans (by rw [Dec.storeEdge_buf hroom, if_neg (Nat.ne_of_lt hk)])
      · cases k with
        | zero =>
          refine (hkept x.widx.toNat (by omega)).trans ?_
          rw [Dec.storeEdge_buf hroom, if_pos rfl, x.gap_add]
          rfl
        | succ k =>
          have hnext := hstored k (by omega) (Nat.lt_of_succ_lt_succ hlen)
          rw [hsucc, Nat.add_assoc, Nat.add_comm 1 k] at hnext
          exact hnext
    · have hfull : x.hasRoom = false := Dec.hasRoom_eq_false_iff.mpr (Nat.not_lt.mp hroom)
      rw [Dec.edges_of_full hears hfull hshort]
      exact ⟨rfl, rfl, rfl, rfl, (by omega : x.widx.toNat = _), fun _ _ => rfl, fun k hk _ => by omega⟩

/-- The edges of a run, on a decoder that is present. -/
theorem runEvents_edges_at {line : BitVec 8} {l : List Micros} {s : State} {d : Nat} {x : Dec}
    (hx : s.dec[d]? = some x) :
    ∃ t, runEvents (l.map (Instr.dEdge line)) s = some t ∧ t.dec[d]? = some (x.edges line l) := by
  obtain ⟨t, hrun, hdec⟩ := runEvents_edges line l s
  exact ⟨t, hrun, by rw [hdec, List.getElem?_map, hx, Option.map_some]⟩

/-- Settles O51: with the cursor at the sentinel there is no room, and the synchro edge commits the
sentinel, which D.NB answers with 0. -/
theorem staleFrameIsNeverCommitted : Obligations.StaleFrameIsNeverCommitted := by
  unfold Obligations.StaleFrameIsNeverCommitted
  intro d line gaps g x s hx hatt hline hwidx hshort hlong
  have hears : x.hears line = true := Dec.hears_iff.mpr ⟨hatt, hline⟩
  have hfull : x.hasRoom = false := Dec.hasRoom_eq_false_iff.mpr (by rw [hwidx]; decide)
  have hy : x.edges line (stampsFrom x.prevTs (gaps ++ [g])) =
      (x.dropEdge (x.prevTs + sumGaps gaps)).syncEdge (x.prevTs + sumGaps gaps + g) := by
    rw [stampsFrom_append, Dec.edges_append, Dec.edges_of_full hears hfull hshort]
    exact Dec.edge_of_sync hears (Dec.isSync_add_of_le (x := x.dropEdge (x.prevTs + sumGaps gaps)) hlong)
  obtain ⟨t, hrun, hdec⟩ := runEvents_edges_at (line := line) (l := stampsFrom x.prevTs (gaps ++ [g])) hx
  rw [hy] at hdec
  refine ⟨t, _, _, hrun, hdec, hwidx, rfl, rfl, exec_dNb hdec, ?_⟩
  have hccnt : ((x.dropEdge (x.prevTs + sumGaps gaps)).syncEdge (x.prevTs + sumGaps gaps + g)).ccnt = 255 :=
    hwidx
  rw [State.respond_resp, Dec.count_of_lt (by rw [hccnt]; decide)]
  rfl

/-- A frame from the synchro edge on: short intervals and a gap commit their number, and the buffer holds
them. -/
theorem Dec.edges_of_frame {x : Dec} {line : BitVec 8} {gaps : List Micros} {g : Micros}
    (hears : x.hears line = true) (hcursor : x.widx = 0) (hsync : x.psyncTs = x.prevTs)
    (hshort : ∀ v ∈ gaps, v.toNat < 3000) (hlong : 3000 ≤ g.toNat) :
    ∃ y, x.edges line (stampsFrom x.prevTs (gaps ++ [g])) = y ∧ y.ccnt.toNat = min gaps.length 9 ∧
      y.widx = 0 ∧ y.sync = 0xFF ∧ y.periodEst = sumGaps gaps + g ∧
      ∀ k, k < min gaps.length 9 → y.buf[k]? = gaps[k]? := by
  have hzero : x.widx.toNat = 0 := by rw [hcursor]; rfl
  have hrun := Dec.edges_of_short hears (by omega) hshort
  rw [stampsFrom_append, Dec.edges_append]
  generalize x.edges line (stampsFrom x.prevTs gaps) = z at hrun
  obtain ⟨hatt, hline, hpsync, hprev, hwidx, -, hstored⟩ := hrun
  have hears' : z.hears line = true := by
    obtain ⟨h1, h2⟩ := Dec.hears_iff.mp hears
    exact Dec.hears_iff.mpr ⟨hatt.trans h1, hline.trans h2⟩
  rw [← hprev, Dec.edge_of_sync hears' (Dec.isSync_add_of_le hlong)]
  rw [hzero, Nat.zero_add] at hwidx
  refine ⟨_, rfl, hwidx, rfl, rfl, ?_, fun k hk => ?_⟩
  · calc interval (z.prevTs + g) z.psyncTs
        = x.prevTs + (sumGaps gaps + g) - x.prevTs := by
          rw [interval, hprev, hpsync, hsync, BitVec.add_assoc]
      _ = sumGaps gaps + g := by rw [BitVec.add_comm, BitVec.add_sub_cancel]
  · have hentry := hstored k (by omega) (by omega)
    rw [hzero, Nat.zero_add] at hentry
    exact hentry

/-- Settles O52: the first synchro edge starts the frame, whose count D.NB then answers. -/
theorem frameIsReconstructed : Obligations.FrameIsReconstructed := by
  unfold Obligations.FrameIsReconstructed
  intro d line t0 gaps g x s hx hatt hline hlong0 hshort hlong
  have hears : x.hears line = true := Dec.hears_iff.mpr ⟨hatt, hline⟩
  have hstart : x.edge line t0 = x.syncEdge t0 := Dec.edge_of_sync hears (decide_eq_true hlong0)
  obtain ⟨y, hy, hccnt, hwidx, hsync, hperiod, hbuf⟩ :=
    Dec.edges_of_frame (x := x.syncEdge t0) hears rfl rfl hshort hlong
  obtain ⟨t, hrun, hdec⟩ :=
    runEvents_edges_at (line := line) (l := t0 :: stampsFrom t0 (gaps ++ [g])) hx
  have hall : x.edges line (t0 :: stampsFrom t0 (gaps ++ [g])) = y := by
    rw [Dec.edges_cons, hstart]
    exact hy
  rw [hall] at hdec
  refine ⟨t, _, y, hrun, hdec, hccnt, hwidx, hsync, hperiod, hbuf, exec_dNb hdec, ?_⟩
  rw [State.respond_resp, Dec.count_of_le (by rw [hccnt]; exact Nat.min_le_right _ _), hccnt]

end Sys2Proof.Machine
end

section
/-! PROOFS. The five conditions (60_exceptions.md section 1): which event raises which, and that each
leaves only the effect of its rule. -/

namespace Sys2Proof.Machine

/-! ### Which event raises which condition -/

/-- The ways an event raises a condition (60_exceptions.md R170), one constructor for each. -/
inductive Raises (s : State) : Instr → Condition → Prop
  | exhaustion (pol : Polarity) {nch : BitVec 4} (per : Micros) : nch ≠ 0 →
      Raises s (.gInit false pol nch per) .resourceExhaustion
  | setwChannel {ch : BitVec 4} (width : Micros) : validChannel s.gen ch = false →
      Raises s (.gSetw ch width) .invalidChannel
  | readChannel {d : BitVec 3} {ch : BitVec 4} : d.toNat < s.dec.length → validRead ch = false →
      Raises s (.dWidth d ch) .invalidChannel
  | overflow {line : BitVec 8} {ts : Micros} {k : Nat} {x : Dec} : s.dec[k]? = some x →
      x.overflows line ts = true → Raises s (.dEdge line ts) .capacityOverflow
  | initTiming {pol : Polarity} {nch : BitVec 4} {per : Micros} : nch ≠ 0 →
      fillerViolates s.cfg (initTable s.cfg s.gen s.draws pol nch per) = true →
      Raises s (.gInit true pol nch per) .timingViolation
  | setwTiming {ch : BitVec 4} {width : Micros} : s.gen.en = true → validChannel s.gen ch = true →
      fillerViolates s.cfg (setChannel s.cfg s.gen s.draws ch width) = true →
      Raises s (.gSetw ch width) .timingViolation
  | capture {d : BitVec 3} (line : BitVec 8) : d.toNat < s.dec.length →
      Raises s (.dAttach d false line) .captureUnavailable

/-- An event raises no condition or one. -/
theorem conditionsOf_cases (i : Instr) (s : State) :
    conditionsOf i s = [] ∨ ∃ c, conditionsOf i s = [c] ∧ Raises s i c := by
  cases i with
  | gInit a pol nch per =>
    simp only [conditionsOf]
    split
    · exact .inl rfl
    · rename_i hnch
      cases a with
      | false => exact .inr ⟨_, rfl, .exhaustion pol per hnch⟩
      | true =>
        rw [Bool.not_true, if_neg Bool.false_ne_true]
        split
        · rename_i hviolates
          exact .inr ⟨_, rfl, .initTiming hnch hviolates⟩
        · exact .inl rfl
  | gSetw ch width =>
    simp only [conditionsOf]
    cases hen : s.gen.en with
    | false => exact .inl rfl
    | true =>
      cases hvalid : validChannel s.gen ch with
      | false => exact .inr ⟨_, rfl, .setwChannel width hvalid⟩
      | true =>
        simp only [Bool.not_true, Bool.false_eq_true, if_false]
        split
        · rename_i hviolates
          exact .inr ⟨_, rfl, .setwTiming hen hvalid hviolates⟩
        · exact .inl rfl
  | dAttach d slotOk line =>
    simp only [conditionsOf]
    split
    · rename_i h
      rw [Bool.and_eq_true, Bool.not_eq_true', hasInstance, decide_eq_true_iff] at h
      obtain ⟨hd, rfl⟩ := h
      exact .inr ⟨_, rfl, .capture line hd⟩
    · exact .inl rfl
  | dEdge line ts =>
    simp only [conditionsOf]
    split
    · rename_i h
      obtain ⟨x, hmem, hover⟩ := List.any_eq_true.mp h
      obtain ⟨k, hk⟩ := List.mem_iff_getElem?.mp hmem
      exact .inr ⟨_, rfl, .overflow hk hover⟩
    · exact .inl rfl
  | dWidth d ch =>
    simp only [conditionsOf]
    split
    · rename_i h
      rw [Bool.and_eq_true, Bool.not_eq_true', hasInstance, decide_eq_true_iff] at h
      exact .inr ⟨_, rfl, .readChannel h.1 h.2⟩
    · exact .inl rfl
  | _ => exact .inl rfl

/-- A condition that an event raises is raised in one of these ways. -/
theorem raises_of_mem {i : Instr} {s : State} {c : Condition} (h : c ∈ conditionsOf i s) : Raises s i c := by
  obtain hnone | ⟨c', hone, hraises⟩ := conditionsOf_cases i s
  · rw [hnone] at h
    cases h
  · rw [hone, List.mem_singleton] at h
    exact h ▸ hraises

/-- No event raises two conditions. -/
theorem conditionsOf_length_le (i : Instr) (s : State) : (conditionsOf i s).length ≤ 1 := by
  obtain hnone | ⟨c, hone, -⟩ := conditionsOf_cases i s
  · rw [hnone]
    exact Nat.zero_le 1
  · rw [hone]
    exact Nat.le_refl 1

/-! ### InvalidChannel and CapacityOverflow -/

/-- With an invalid channel nothing is changed. -/
theorem exec_of_invalidChannel {i : Instr} {s : State} (h : Raises s i .invalidChannel) :
    exec i s = .next (s.respond 0) := by
  cases h with
  | setwChannel width hvalid => exact execGSetw_of_not_validChannel width hvalid
  | @readChannel d ch hd hvalid =>
    have hread := onDec_read (fun x => (x.width ch : Int)) (List.getElem?_eq_getElem hd)
    rw [Dec.width_of_not_validRead _ hvalid] at hread
    exact hread

/-- A decoder overflows when it hears a short interval with no room (60_exceptions.md R170 E3). -/
theorem Dec.overflows_iff {x : Dec} {line : BitVec 8} {ts : Micros} :
    x.overflows line ts = true ↔ x.hears line = true ∧ x.isSync ts = false ∧ x.hasRoom = false := by
  rw [Dec.overflows, Bool.and_eq_true, Bool.and_eq_true, Bool.not_eq_true', Bool.not_eq_true', and_assoc]

/-- A decoder that overflows drops the interval. -/
theorem Dec.edge_of_overflows {x : Dec} {line : BitVec 8} {ts : Micros} (h : x.overflows line ts = true) :
    x.edge line ts = x.dropEdge ts := by
  obtain ⟨hears, hshort, hfull⟩ := Dec.overflows_iff.mp h
  exact Dec.edge_of_full hears hshort hfull

/-! ### TimingViolation -/

/-- A filler that violates the timing is outside the encoder's domain, and a drawn value is stored for
it. -/
theorem fillerStored_of_violates {c : Config} {g : Gen} (n : Nat) (h : fillerViolates c g = true) :
    ∃ f, (f < 0 ∨ 32752 < f) ∧ FillerStored c g n f (drawn n) (n + 1) := by
  unfold fillerViolates at h
  split at h
  · cases h
  · rename_i f hf
    have hnot : fillerFits f = false := (Bool.not_eq_true' _).mp h
    exact ⟨f, fillerFits_eq_false_iff.mp hnot, hf, .inr ⟨hnot, rfl, rfl⟩⟩

/-- Settles O53: by the ways each condition is raised. -/
theorem conditionsAreSilent : Obligations.ConditionsAreSilent := by
  unfold Obligations.ConditionsAreSilent
  intro i s
  refine ⟨conditionsOf_length_le i s, fun h => ?exhaustion, fun h => exec_of_invalidChannel (raises_of_mem h),
    fun h => ?overflow, fun h => ?timing, fun h => ?capture⟩
  case exhaustion =>
    cases raises_of_mem h with
    | exhaustion pol per hnch => exact exec_gInit_false pol per s hnch
  case overflow =>
    cases raises_of_mem h with
    | @overflow line ts k x hx hover =>
      refine ⟨line, ts, _, rfl, exec_dEdge line ts s, rfl, ⟨k, x, hx, hover⟩, fun j y hy => ⟨?_, fun hdrop => ?_⟩⟩
      · rw [Dec.overflows_iff, Dec.hears_iff, Dec.isSync_eq_false_iff, Dec.hasRoom_eq_false_iff, and_assoc]
      · rw [State.respond_dec, State.mapDec_dec, List.getElem?_map, hy, Option.map_some,
          Dec.edge_of_overflows hdrop]
        rfl
  case timing =>
    cases raises_of_mem h with
    | @initTiming pol nch per hnch hviolates =>
      obtain ⟨f, hf, hstored⟩ := fillerStored_of_violates
        (neutralDraws s.cfg s.draws (clampChannels nch).toNat) hviolates
      obtain ⟨hzero, hchannels, habove⟩ := initState_slots s pol nch per _ _
      refine ⟨_, f, exec_gInit_of_stored hnch hstored, (fillerTicks_withFiller _ _ _).trans hstored.1, hf,
        Nat.lt_succ_of_le (le_neutralDraws _ _ _), ⟨_, hzero⟩,
        .inr ⟨pol, nch, per, rfl, rfl, initState_gen s pol nch per _ _, fun w hw hle k h1 hk => ?_, habove⟩⟩
      obtain rfl : w = widthTicks s.cfg 1500 := hw
      rw [hchannels k h1 hk, neutralEntry, encodeOrDraw_of_le _ hle]
    | @setwTiming ch width hen hvalid hviolates =>
      obtain ⟨f, hf, hstored⟩ := fillerStored_of_violates
        (encodeOrDraw (widthTicks s.cfg width.toNat) s.draws).2 hviolates
      obtain ⟨hzero, hchannel, hothers⟩ := setwState_slots s width _ _ (validChannel_iff.mp hvalid).1
        (hstored.channel_lt hvalid)
      refine ⟨_, f, exec_gSetw_of_stored hen hvalid hstored, (fillerTicks_withFiller _ _ _).trans hstored.1,
        hf, Nat.lt_succ_of_le (le_encodeOrDraw_draws _ _), ⟨_, hzero⟩,
        .inl ⟨ch, width, rfl, rfl, fun w hw hle => ?_, hothers⟩⟩
      obtain rfl : w = widthTicks s.cfg width.toNat := hw
      rw [hchannel, encodeOrDraw_of_le _ hle]
  case capture =>
    cases raises_of_mem h with
    | @capture d line hd => exact ⟨d, line, rfl, attachResetsTheInstance d false line s hd⟩

end Sys2Proof.Machine
end
